-- ==== Sys2Proof/Word.lean ====
section
/-! DEFINITION. The value types that cross the interface of the block: bytes, 16-bit words, 32-bit patterns, the tagged
operand kinds of 10_state.md R28 and R29, the error codes of 60_exceptions.md R300, the result of R25 and the operand record
of R27. No behaviour is defined here. -/

namespace Sys2Proof

/-- A `Byte` of 00_scope.md R12: an integer in 0..255. -/
abbrev Byte := BitVec 8

/-- A 16-bit word: a command word (30_encoding.md R60) or a PDU field (R65). -/
abbrev Word16 := BitVec 16

/-- `Bits32` of 00_scope.md R12: a 32-bit pattern. -/
abbrev Bits32 := BitVec 32

/-- `BitIn` (10_state.md R28): a bit-like value, tagged so that no integer is read as a boolean. -/
inductive BitIn where
  | bool (b : Bool)
  | int (v : Int)
deriving DecidableEq, Repr

/-- `CoilIn` (10_state.md R28, R29): a coil write value, tagged in the same way. -/
inductive CoilIn where
  | bool (b : Bool)
  | int (v : Int)
deriving DecidableEq, Repr

/-- `Signedness` (10_state.md R28, 42_response_encoder.md R173): one flag for every value, or one flag per value. -/
inductive Signedness where
  | uniform (signed : Bool)
  | perElement (flags : List Bool)
deriving DecidableEq, Repr

/-- The error codes of 60_exceptions.md R300. An error is a RESULT of a transaction: the block goes on. -/
inductive ErrorCode where
  /-- An element count outside the range of the function. -/
  | invalidQuantity
  /-- A single-coil write value that is neither boolean nor 0x0000 nor 0xFF00. -/
  | illegalValue
  /-- An integer operand that does not fit its 8-bit or 16-bit field. -/
  | fieldOverflow
  /-- A `BitIn` element that is an integer other than 0 and 1. -/
  | notABit
  /-- Fewer than two echo bytes. -/
  | shortPayload
  /-- A per-element signedness list of the wrong length. -/
  | lengthMismatch
  /-- A digit string that `B2F` does not accept. -/
  | badDigitString
  /-- A negative integer given to `I2B`. -/
  | negativeInput
  /-- A command word that is not assigned. -/
  | undefinedCommand
deriving DecidableEq, Repr

/-- The result of a transaction (10_state.md R25): one of four kinds of `Ok`, or `Err(code)` with nothing beside the code. A
`String` is the list of its characters, index 0 first (00_scope.md R13). -/
inductive Result where
  | bytes (bs : List Byte)
  | verdict (b : Bool)
  | bits32 (x : Bits32)
  | digits (cs : List Char)
  | err (e : ErrorCode)
deriving DecidableEq, Repr

/-- The operand record of a transaction (10_state.md R24, R27), as one lane for every operand of R27, under the name R27 gives
it; where R27 uses one name for operands of different kinds (`value`, `values`), each kind has a lane of its own. An operation
reads the lanes R27 lists for it and no other. DESIGN CHOICE (log entry 4), safe: the lanes an operation does not read cannot
change its result. -/
structure OperandRecord where
  /-- `address: Int` -/
  address : Int
  /-- `quantity: Int` -/
  quantity : Int
  /-- `value: CoilIn` of REQ.WSC -/
  coil : CoilIn
  /-- `value: Int` of REQ.WSR -/
  value : Int
  /-- `signed: Bool` -/
  signed : Bool
  /-- `values: List BitIn` -/
  bits : List BitIn
  /-- `values: List Int` -/
  regs : List Int
  /-- `signedness: Signedness` -/
  signedness : Signedness
  /-- `echo: Bytes` -/
  echo : List Byte
  /-- `data: Bytes` of VAL -/
  data : List Byte
  /-- `fc: Int` of VAL and EXC -/
  fc : Int
  /-- `expectedValue: Option Int` of VAL -/
  expectedValue : Option Int
  /-- `expectedQuantity: Option Int` of VAL -/
  expectedQuantity : Option Int
  /-- `exceptionCode: Int` of EXC -/
  exceptionCode : Int
  /-- `x: Bits32` of F2B -/
  pattern : Bits32
  /-- `s: String` of B2F -/
  digits : List Char
  /-- `n: Int` of I2B -/
  number : Int
deriving DecidableEq, Repr

/-- The record of zeros: every integer 0, every flag false, every list empty, every option absent. -/
def OperandRecord.zero : OperandRecord :=
  { address := 0, quantity := 0, coil := .int 0, value := 0, signed := false, bits := [], regs := [],
    signedness := .uniform false, echo := [], data := [], fc := 0, expectedValue := none, expectedQuantity := none,
    exceptionCode := 0, pattern := 0, digits := [], number := 0 }

end Sys2Proof
end

