-- ==== Sys2Proof/Config.lean ====
section
/-! DEFINITION. The two build parameters the spec leaves open (00_scope.md R11, 10_state.md R32): a model takes them as
arguments of its configuration, and the state record carries them (log entry 2). There is no other open value, so there is no
free value in this model (93_implementation_defined.md section 1). -/

namespace Sys2Proof

/-- `PACK_SHORT_ALIGN` (41_bit_packer.md R151, decision D8): where the bits of a final group shorter than 8 go. -/
inductive ShortAlign where
  /-- LOW: the algorithm as written, the group's first bit at bit `L - 1`. -/
  | low
  /-- HIGH: left-aligned, the group's first bit at bit 7. -/
  | high
deriving DecidableEq, Repr

/-- `VAL_LEN_POLICY` (43_response_validator.md R211, decision D14): the payload lengths the validator decodes. -/
inductive LenPolicy where
  /-- EXACT: a payload of exactly four bytes. -/
  | exactLength
  /-- PREFIX: a payload of at least four bytes, of which the first four are read. -/
  | prefixLength
deriving DecidableEq, Repr

/-- The configuration of one build of the block. -/
structure Config where
  packShortAlign : ShortAlign
  valLenPolicy : LenPolicy
deriving DecidableEq, Repr

/-- The defaults the spec gives: `LOW` and `EXACT` (92_eei_decisions.md D8, D14). -/
def Config.default : Config := { packShortAlign := .low, valLenPolicy := .exactLength }

end Sys2Proof
end

