-- ==== Sys2Proof/Machine/Constants.lean ====
section
/-! DEFINITION. The FunctionCodeTable and the limits (10_state.md R21): hardwired constants that no operation writes and that
hold the same value at every moment, also right after reset (R33, 70_reset_and_hazards.md R342). -/

namespace Sys2Proof.Machine

/-- FC_READ_COILS -/
def fcReadCoils : Byte := 0x01
/-- FC_READ_DISCRETE_INPUTS -/
def fcReadDiscreteInputs : Byte := 0x02
/-- FC_READ_HOLDING_REGISTERS -/
def fcReadHoldingRegisters : Byte := 0x03
/-- FC_READ_INPUT_REGISTERS -/
def fcReadInputRegisters : Byte := 0x04
/-- FC_WRITE_SINGLE_COIL -/
def fcWriteSingleCoil : Byte := 0x05
/-- FC_WRITE_SINGLE_REGISTER -/
def fcWriteSingleRegister : Byte := 0x06
/-- FC_WRITE_MULTIPLE_COILS -/
def fcWriteMultipleCoils : Byte := 0x0F
/-- FC_WRITE_MULTIPLE_REGISTERS -/
def fcWriteMultipleRegisters : Byte := 0x10
/-- ERROR_BIAS -/
def errorBias : Byte := 0x80
/-- COIL_ON -/
def coilOn : Int := 0xFF00
/-- COIL_OFF -/
def coilOff : Int := 0x0000
/-- MAX_READ_BITS -/
def maxReadBits : Int := 2000
/-- MAX_READ_REGS -/
def maxReadRegs : Int := 125
/-- MAX_WRITE_COILS -/
def maxWriteCoils : Int := 1968
/-- MAX_WRITE_REGS -/
def maxWriteRegs : Int := 123

/-- The eight function codes of the table, in its order. -/
def functionCodes : List Byte :=
  [fcReadCoils, fcReadDiscreteInputs, fcReadHoldingRegisters, fcReadInputRegisters,
   fcWriteSingleCoil, fcWriteSingleRegister, fcWriteMultipleCoils, fcWriteMultipleRegisters]

end Sys2Proof.Machine
end

