-- ==== Sys2Proof/Machine/Operands.lean ====
section
/-! DEFINITION. Operand assembly: the field encoders and decoders of 30_encoding.md section 2 (R63 to R68), the normalisation of
coil values (40_request_encoder.md R105), the conversion of bit-like values (41_bit_packer.md R150), the flags of a signedness
(42_response_encoder.md R173) and the validator's length check (43_response_validator.md R211). -/

namespace Sys2Proof.Machine

/-- `require C else raise E` (00_scope.md R16). -/
def require (c : Bool) (e : ErrorCode) : Except ErrorCode Unit := if c then .ok () else .error e

/-- `w[15:8]` -/
def hiByte (w : Word16) : Byte := w.extractLsb' 8 8

/-- `w[7:0]` -/
def loByte (w : Word16) : Byte := w.extractLsb' 0 8

/-- `EncU8(v)` (R64) -/
def encU8 (v : Int) : Except ErrorCode (List Byte) := do
  require (decide (0 ≤ v ∧ v ≤ 255)) .fieldOverflow
  return [BitVec.ofInt 8 v]

/-- `Enc16(v, signed)` (R65): one big-endian 16-bit field, two's complement for a negative value (20_memory.md R43). -/
def enc16 (v : Int) (signed : Bool) : Except ErrorCode (List Byte) := do
  require (if signed then decide (-32768 ≤ v ∧ v ≤ 32767) else decide (0 ≤ v ∧ v ≤ 65535)) .fieldOverflow
  let w : Word16 := BitVec.ofInt 16 v
  return [hiByte w, loByte w]

/-- `EncU16(v)` (R65) -/
def encU16 (v : Int) : Except ErrorCode (List Byte) := enc16 v false

/-- `sext_16(w)` of 00_scope.md R15. -/
def sext16 (w : Nat) : Int := if w < 0x8000 then (w : Int) else (w : Int) - 0x10000

/-- `Dec16(b0, b1, signed)` (R66) -/
def dec16 (b0 b1 : Byte) (signed : Bool) : Int :=
  let w := b0.toNat * 256 + b1.toNat
  if signed then sext16 w else (w : Int)

/-- `ceil_div(a, b)` of 00_scope.md R15. -/
def ceilDiv (a b : Nat) : Nat := (a + b - 1) / b

/-- `ByteCountCoils(n)` (R67) -/
def byteCountCoils (n : Nat) : Nat := ceilDiv n 8

/-- `ByteCountRegs(n)` (R68) -/
def byteCountRegs (n : Nat) : Nat := 2 * n

/-- `CoilNorm(value)` (40_request_encoder.md R105) -/
def coilNorm : CoilIn → Except ErrorCode Int
  | .bool true => .ok coilOn
  | .bool false => .ok coilOff
  | .int v => if v = coilOff then .ok coilOff else if v = coilOn then .ok coilOn else .error .illegalValue

/-- `bitval(e)` (41_bit_packer.md R150), as a boolean: 1 is true. -/
def bitval : BitIn → Except ErrorCode Bool
  | .bool b => .ok b
  | .int v => if v = 0 then .ok false else if v = 1 then .ok true else .error .notABit

/-- The bits of a list in order; the first element that is no bit raises `NotABit` (41_bit_packer.md R151). -/
def bitvals : List BitIn → Except ErrorCode (List Bool)
  | [] => .ok []
  | e :: es => do
    let b ← bitval e
    let bs ← bitvals es
    return b :: bs

/-- The register values in order, each under its flag; the first that does not fit raises `FieldOverflow`
(40_request_encoder.md R109, 42_response_encoder.md R174). -/
def encRegs : List (Int × Bool) → Except ErrorCode (List Byte)
  | [] => .ok []
  | (v, signed) :: rest => do
    let b ← enc16 v signed
    let bs ← encRegs rest
    return b ++ bs

/-- The length check of a signedness over `n` values (42_response_encoder.md R173). -/
def lengthMatches (n : Nat) : Signedness → Bool
  | .uniform _ => true
  | .perElement fs => fs.length == n

/-- `SignFlag(signedness, i)` for `i = 0 .. n-1` (42_response_encoder.md R173). -/
def signFlags (n : Nat) : Signedness → List Bool
  | .uniform b => List.replicate n b
  | .perElement fs => fs

/-- `LenOK(data)` (43_response_validator.md R211) -/
def lenOK (policy : LenPolicy) (data : List Byte) : Bool :=
  match policy with
  | .exactLength => data.length == 4
  | .prefixLength => decide (4 ≤ data.length)

/-- `s[i]` of 00_scope.md R14 for a byte list; only read at indices below its length. -/
def byteAt (bs : List Byte) (i : Nat) : Byte := bs.getD i 0

end Sys2Proof.Machine
end

