-- ==== Sys2Proof/Syntax.lean ====
section
/-! DEFINITION. The 22 operations of spec/opcode_table.json (00_scope.md R2), one constructor a row, each with the operands
10_state.md R27 gives it, in R27's order. -/

namespace Sys2Proof

/-- An operation with its operands. The function code of a REQ or RSP operation is no operand: the command word selects it
(10_state.md R27). -/
inductive Instr where
  /-- REQ.RC, 40_request_encoder.md R101 -/
  | reqRc (address quantity : Int)
  /-- REQ.RDI, R102 -/
  | reqRdi (address quantity : Int)
  /-- REQ.RHR, R103 -/
  | reqRhr (address quantity : Int)
  /-- REQ.RIR, R104 -/
  | reqRir (address quantity : Int)
  /-- REQ.WSC, R106 -/
  | reqWsc (address : Int) (value : CoilIn)
  /-- REQ.WSR, R107 -/
  | reqWsr (address value : Int) (signed : Bool)
  /-- REQ.WMC, R108 -/
  | reqWmc (address : Int) (values : List BitIn)
  /-- REQ.WMR, R109 -/
  | reqWmr (address : Int) (values : List Int) (signed : Bool)
  /-- RSP.RC, 42_response_encoder.md R171 -/
  | rspRc (values : List BitIn)
  /-- RSP.RDI, R172 -/
  | rspRdi (values : List BitIn)
  /-- RSP.RHR, R174 -/
  | rspRhr (values : List Int) (signedness : Signedness)
  /-- RSP.RIR, R175 -/
  | rspRir (values : List Int) (signedness : Signedness)
  /-- RSP.WSC, R176 -/
  | rspWsc (address : Int) (echo : List Byte)
  /-- RSP.WSR, R177 -/
  | rspWsr (address : Int) (echo : List Byte)
  /-- RSP.WMC, R178 -/
  | rspWmc (address quantity : Int)
  /-- RSP.WMR, R179 -/
  | rspWmr (address quantity : Int)
  /-- VAL, 43_response_validator.md R213 -/
  | val (data : List Byte) (fc address : Int) (expectedValue expectedQuantity : Option Int) (signed : Bool)
  /-- EXC, 44_exception_encoder.md R240 -/
  | exc (fc exceptionCode : Int)
  /-- PACK, 41_bit_packer.md R154 -/
  | pack (values : List BitIn)
  /-- F2B, 45_numeric_codec.md R252 -/
  | f2b (pattern : Bits32)
  /-- B2F, R254 -/
  | b2f (digits : List Char)
  /-- I2B, R257 -/
  | i2b (number : Int)
deriving DecidableEq, Repr

end Sys2Proof
end

