-- ==== Sys2Proof/Decode.lean ====
section
/-! DEFINITION. The command word (30_encoding.md R60 to R62, R72): the 22 assigned words, the total decoder, which rejects every
other word by name, and after it the encoder, written from the same table. -/

namespace Sys2Proof

/-- The operation a command word selects: the 22 mnemonics, without operands. -/
inductive Op where
  | reqRc | reqRdi | reqRhr | reqRir | reqWsc | reqWsr | reqWmc | reqWmr
  | rspRc | rspRdi | rspRhr | rspRir | rspWsc | rspWsr | rspWmc | rspWmr
  | val | exc | pack | f2b | b2f | i2b
deriving DecidableEq, Repr

/-- The rows of 30_encoding.md R61, in its order. -/
def Op.all : List Op :=
  [.reqRc, .reqRdi, .reqRhr, .reqRir, .reqWsc, .reqWsr, .reqWmc, .reqWmr,
   .rspRc, .rspRdi, .rspRhr, .rspRir, .rspWsc, .rspWsr, .rspWmc, .rspWmr,
   .val, .exc, .pack, .f2b, .b2f, .i2b]

/-- The column "unit" of R61. -/
def Op.unit : Op → Byte
  | .reqRc | .reqRdi | .reqRhr | .reqRir | .reqWsc | .reqWsr | .reqWmc | .reqWmr => 0x01
  | .rspRc | .rspRdi | .rspRhr | .rspRir | .rspWsc | .rspWsr | .rspWmc | .rspWmr => 0x02
  | .val => 0x03
  | .exc => 0x04
  | .pack => 0x05
  | .f2b | .b2f | .i2b => 0x06

/-- The column "sel" of R61. -/
def Op.sel : Op → Byte
  | .reqRc | .rspRc => 0x01
  | .reqRdi | .rspRdi => 0x02
  | .reqRhr | .rspRhr => 0x03
  | .reqRir | .rspRir => 0x04
  | .reqWsc | .rspWsc => 0x05
  | .reqWsr | .rspWsr => 0x06
  | .reqWmc | .rspWmc => 0x0F
  | .reqWmr | .rspWmr => 0x10
  | .val | .exc | .pack | .f2b => 0x00
  | .b2f => 0x01
  | .i2b => 0x02

/-- `unit = cmd[15:8]` (R60). -/
def cmdUnit (cmd : Word16) : Byte := cmd.extractLsb' 8 8

/-- `sel = cmd[7:0]` (R60). -/
def cmdSel (cmd : Word16) : Byte := cmd.extractLsb' 0 8

/-- The operation a command word selects; `none` for an unassigned word (R61, R62). -/
def decodeOp (cmd : Word16) : Option Op :=
  Op.all.find? (fun op => op.unit == cmdUnit cmd && op.sel == cmdSel cmd)

/-- The instruction an operation makes of the lanes R27 lists for it. -/
def Op.instr (op : Op) (o : OperandRecord) : Instr :=
  match op with
  | .reqRc => .reqRc o.address o.quantity
  | .reqRdi => .reqRdi o.address o.quantity
  | .reqRhr => .reqRhr o.address o.quantity
  | .reqRir => .reqRir o.address o.quantity
  | .reqWsc => .reqWsc o.address o.coil
  | .reqWsr => .reqWsr o.address o.value o.signed
  | .reqWmc => .reqWmc o.address o.bits
  | .reqWmr => .reqWmr o.address o.regs o.signed
  | .rspRc => .rspRc o.bits
  | .rspRdi => .rspRdi o.bits
  | .rspRhr => .rspRhr o.regs o.signedness
  | .rspRir => .rspRir o.regs o.signedness
  | .rspWsc => .rspWsc o.address o.echo
  | .rspWsr => .rspWsr o.address o.echo
  | .rspWmc => .rspWmc o.address o.quantity
  | .rspWmr => .rspWmr o.address o.quantity
  | .val => .val o.data o.fc o.address o.expectedValue o.expectedQuantity o.signed
  | .exc => .exc o.fc o.exceptionCode
  | .pack => .pack o.bits
  | .f2b => .f2b o.pattern
  | .b2f => .b2f o.digits
  | .i2b => .i2b o.number

/-- The decoder, total over every command word and operand record. An unassigned word is rejected as `UndefinedCommand` before
any operand is looked at (R62). -/
def decode (cmd : Word16) (o : OperandRecord) : Except ErrorCode Instr :=
  match decodeOp cmd with
  | some op => .ok (op.instr o)
  | none => .error .undefinedCommand

/-- The operation of an instruction. -/
def Instr.op : Instr → Op
  | .reqRc _ _ => .reqRc
  | .reqRdi _ _ => .reqRdi
  | .reqRhr _ _ => .reqRhr
  | .reqRir _ _ => .reqRir
  | .reqWsc _ _ => .reqWsc
  | .reqWsr _ _ _ => .reqWsr
  | .reqWmc _ _ => .reqWmc
  | .reqWmr _ _ _ => .reqWmr
  | .rspRc _ => .rspRc
  | .rspRdi _ => .rspRdi
  | .rspRhr _ _ => .rspRhr
  | .rspRir _ _ => .rspRir
  | .rspWsc _ _ => .rspWsc
  | .rspWsr _ _ => .rspWsr
  | .rspWmc _ _ => .rspWmc
  | .rspWmr _ _ => .rspWmr
  | .val _ _ _ _ _ _ => .val
  | .exc _ _ => .exc
  | .pack _ => .pack
  | .f2b _ => .f2b
  | .b2f _ => .b2f
  | .i2b _ => .i2b

/-- The command word of an operation: unit above sel (R60, R61). -/
def Op.cmd (op : Op) : Word16 := op.unit ++ op.sel

/-- The operand record of an instruction: the operands of R27 in their lanes, zeros in the others. The lanes and the zeros are the
model's conventions (DESIGN CHOICE, log entries 4 and 7). -/
def Instr.record : Instr → OperandRecord
  | .reqRc a q | .reqRdi a q | .reqRhr a q | .reqRir a q | .rspWmc a q | .rspWmr a q =>
    { OperandRecord.zero with address := a, quantity := q }
  | .reqWsc a c => { OperandRecord.zero with address := a, coil := c }
  | .reqWsr a v signed => { OperandRecord.zero with address := a, value := v, signed := signed }
  | .reqWmc a vs => { OperandRecord.zero with address := a, bits := vs }
  | .reqWmr a vs signed => { OperandRecord.zero with address := a, regs := vs, signed := signed }
  | .rspRc vs | .rspRdi vs | .pack vs => { OperandRecord.zero with bits := vs }
  | .rspRhr vs sg | .rspRir vs sg => { OperandRecord.zero with regs := vs, signedness := sg }
  | .rspWsc a echo | .rspWsr a echo => { OperandRecord.zero with address := a, echo := echo }
  | .val data fc a ev eq signed =>
    { OperandRecord.zero with
      data := data, fc := fc, address := a, expectedValue := ev, expectedQuantity := eq, signed := signed }
  | .exc fc code => { OperandRecord.zero with fc := fc, exceptionCode := code }
  | .f2b x => { OperandRecord.zero with pattern := x }
  | .b2f cs => { OperandRecord.zero with digits := cs }
  | .i2b n => { OperandRecord.zero with number := n }

/-- The encoder: the command word and the operand record that present `i` to the block. -/
def encode (i : Instr) : Word16 × OperandRecord := (i.op.cmd, i.record)

/-- The command word in the low 16 bits of an instruction of `nbits` bits, every bit from `nbits` up being 0. -/
def cmdOfBits (nbits w : Nat) : Word16 := BitVec.ofNat 16 (w % 2 ^ nbits)

/-- What the decoder reads from an instruction whose bits are `w`: the command word with a record of zeros beside it (the
opcode table gives the operands no bits; log entry 7). -/
def decodeTableWord (nbits w : Nat) : Option Instr :=
  match decode (cmdOfBits nbits w) OperandRecord.zero with
  | .ok i => some i
  | .error _ => none

end Sys2Proof
end

