-- ==== Sys2Proof/Machine/State.lean ====
section
/-! DEFINITION. The state record. The block itself has NO state (10_state.md R20, R33): what stands here is the configuration
argument of R32 and the two sides of the interface of R24, what the hosts present and what is returned to them (log entries 1
to 3). -/

namespace Sys2Proof.Machine

/-- A transaction a host presents (10_state.md R24): a command word and an operand record; `host` numbers the host that issues
it and to which its result goes (20_memory.md R53, decision D24). -/
structure Transaction where
  host : Nat
  cmd : Word16
  operands : OperandRecord
deriving DecidableEq, Repr

/-- What the outside can do to the block: issue a transaction, reset it between transactions, or reset it during a transaction
(70_reset_and_hazards.md R340, R341). -/
inductive Stimulus where
  | issue (t : Transaction)
  | reset
  | resetDuring (t : Transaction)
deriving DecidableEq, Repr

/-- A result on its way to the host that issued the transaction (20_memory.md R53). -/
structure Response where
  host : Nat
  result : Result
deriving DecidableEq, Repr

/-- The machine's state. None of the four fields is architectural state of the block, which has none (10_state.md R20). -/
structure State where
  /-- The build parameters (10_state.md R32), fixed when the block is built: no step writes them. -/
  build : Config
  /-- What the hosts present, next one first. -/
  inbox : List Stimulus
  /-- The host whose transaction is being served. -/
  issuer : Nat
  /-- The results returned so far, oldest first: the hosts' record, never read by an operation (60_exceptions.md R306). -/
  outbox : List Response
deriving DecidableEq, Repr

/-- The machine right after reset (70_reset_and_hazards.md R340, R342, R343): nothing to initialise, the default build, no
transaction presented and none answered. -/
def State.reset : State := { build := Config.default, inbox := [], issuer := 0, outbox := [] }

/-- The reasons the machine could stop with a fault. There is none: every error of the spec is a result of its transaction
(60_exceptions.md R303), so the type has no constructor and no step answers a fault. -/
inductive Fault where
deriving DecidableEq, Repr

/-- The reasons an instruction could be refused. -/
inductive Refusal where
  /-- Raised only by an arm of `exec` that gives its instruction no meaning yet; there is no such arm, so nothing raises it.
  Safe: a refusal proves nothing about the hardware. -/
  | notModelled (mnemonic : String)
deriving DecidableEq, Repr

end Sys2Proof.Machine
end

