-- ==== Sys2Proof/Machine/Ops.lean ====
section
/-! DEFINITION. The named operations over the interface: taking the next transaction, returning a result, ending a transaction
in an error. The block has no registers and no memory (10_state.md R20, 20_memory.md R40), so there is no other operation on the
state. -/

namespace Sys2Proof.Machine

/-- Return `r` to the host whose transaction is being served (10_state.md R24, R25; 20_memory.md R53). -/
def State.respond (s : State) (r : Result) : State :=
  { s with outbox := s.outbox ++ [{ host := s.issuer, result := r }] }

/-- Error entry (60_exceptions.md R303): the transaction ends at once with `Err(e)` and nothing beside the code (R302); no
vector, no saved context, no mode change, and no state of the block to change. There is no return from an error (R306): the
next transaction runs as it would after a success. -/
def raiseError (e : ErrorCode) (s : State) : State := s.respond (.err e)

/-- End a transaction with the outcome of its pseudocode (00_scope.md R16): `return v` gives the result `mk v`, `raise e` is
error entry. -/
def finish {α : Type} (mk : α → Result) (r : Except ErrorCode α) (s : State) : Host.Outcome State Fault Refusal :=
  match r with
  | .ok v => .next (s.respond (mk v))
  | .error e => .next (raiseError e s)

/-- The state in which transaction `t` is served, the stimuli `rest` still to come. -/
def State.accept (s : State) (t : Transaction) (rest : List Stimulus) : State :=
  { s with inbox := rest, issuer := t.host }

/-- The state in which a stimulus that leaves no result has passed. -/
def State.pass (s : State) (rest : List Stimulus) : State := { s with inbox := rest }

/-- What the block finds at its interface. -/
inductive Fetched where
  /-- No stimulus: nothing happens until a host presents one. -/
  | idle
  /-- A reset, alone or during a transaction: no result (70_reset_and_hazards.md R340, R341). -/
  | passed (s : State)
  /-- A transaction whose command word is not assigned (30_encoding.md R62). -/
  | rejected (e : ErrorCode) (s : State)
  /-- A transaction of a defined command word. -/
  | instr (i : Instr) (s : State)
deriving DecidableEq, Repr

/-- Take the next stimulus from the interface and decode a transaction (30_encoding.md R62; 60_exceptions.md R304: decoding
comes before any operand is looked at). -/
def fetch (s : State) : Fetched :=
  match s.inbox with
  | [] => .idle
  | .reset :: rest => .passed (s.pass rest)
  | .resetDuring _ :: rest => .passed (s.pass rest)
  | .issue t :: rest =>
    match decode t.cmd t.operands with
    | .ok i => .instr i (s.accept t rest)
    | .error e => .rejected e (s.accept t rest)

/-- The transaction that presents command word `cmd` with a record of zeros, issued by host 0. -/
def zeroTransaction (cmd : Word16) : Transaction := { host := 0, cmd := cmd, operands := OperandRecord.zero }

/-- `s` with transaction `t` presented next. -/
def State.present (s : State) (t : Transaction) : State := { s with inbox := .issue t :: s.inbox }

end Sys2Proof.Machine
end

