-- ==== Sys2Proof/Machine/BitPacker.lean ====
section
/-! DEFINITION. The BitPacker (41_bit_packer.md): `Pack` and the stand-alone operation `PACK`. The order is MSB-first (R153); it is
never replaced by the LSB-first order of other Modbus implementations. -/

namespace Sys2Proof.Machine

/-- The groups of at most 8 of a bit list, in order (R151): group `g` is `bs[8*g : min(8*g + 8, n)]`. -/
def bitGroups (bs : List Bool) : List (List Bool) :=
  (List.range (ceilDiv bs.length 8)).map (fun g => (bs.drop (8 * g)).take 8)

/-- The byte of one group of 1 to 8 bits (R151): `byte := (byte << 1) | bit` for its bits in order, then shifted left by
`8 - len` under `HIGH`. -/
def packGroup (align : ShortAlign) (grp : List Bool) : Byte :=
  let byte : Byte := grp.foldl (fun (acc : Byte) (bit : Bool) => (acc <<< 1) ||| (if bit then 1#8 else 0#8)) 0#8
  match align with
  | .low => byte
  | .high => byte <<< (8 - grp.length)

/-- The bytes of a list of bits (R151). -/
def packBits (align : ShortAlign) (bs : List Bool) : List Byte := (bitGroups bs).map (packGroup align)

/-- `Pack(values)` (R151) -/
def pack (align : ShortAlign) (values : List BitIn) : Except ErrorCode (List Byte) := do
  let bs ← bitvals values
  return packBits align bs

/-- PACK (R154): no length limit, no function code and no byte count. -/
def execPack (values : List BitIn) (s : State) : Host.Outcome State Fault Refusal :=
  finish .bytes (pack s.build.packShortAlign values) s

end Sys2Proof.Machine
end

