-- ==== Sys2Proof/Machine/ExceptionEncoder.lean ====
section
/-! DEFINITION. The ExceptionEncoder (44_exception_encoder.md). -/

namespace Sys2Proof.Machine

/-- The pseudocode of EXC (R240): bitwise or, not addition (90_conflicts.md C1). -/
def exceptionPdu (fc exceptionCode : Int) : Except ErrorCode (List Byte) := do
  let f ← encU8 fc
  let c ← encU8 exceptionCode
  return f.map (· ||| errorBias) ++ c

/-- EXC (R240) -/
def execExc (fc exceptionCode : Int) (s : State) : Host.Outcome State Fault Refusal :=
  finish .bytes (exceptionPdu fc exceptionCode) s

end Sys2Proof.Machine
end

