-- ==== Sys2Proof/Machine/NumericCodec.lean ====
section
/-! DEFINITION. The NumericCodec (45_numeric_codec.md). It moves bit patterns: no arithmetic on floats, no rounding, no flags
(R251). -/

namespace Sys2Proof.Machine

/-- `ch` of R250. -/
def digitChar (b : Bool) : Char := if b then '1' else '0'

/-- `digit` of R250, for a character that is a digit. -/
def digitValue (c : Char) : Nat := if c = '1' then 1 else 0

/-- The character is one of the two digits (R250). -/
def isDigit (c : Char) : Bool := decide (c = '0' ∨ c = '1')

/-- What a digit string looks like at a byte-wide port: the ASCII code of each character (R250, decision D20). -/
def digitPortBytes (cs : List Char) : List Byte := cs.map (fun c => BitVec.ofNat 8 c.toNat)

/-- The digits of bits `k-1` down to 0 of `n` (R252, R257). -/
def digitsOf (k n : Nat) : List Char := (List.range k).reverse.map (fun i => digitChar (n.testBit i))

/-- F2B (R252): every pattern is accepted, exactly 32 characters. -/
def execF2b (pattern : Bits32) (s : State) : Host.Outcome State Fault Refusal :=
  .next (s.respond (.digits (digitsOf 32 pattern.toNat)))

/-- The value of a digit string, most significant digit first (R254). -/
def stringValue (cs : List Char) : Nat := cs.foldl (fun v c => (v <<< 1) ||| digitValue c) 0

/-- The pseudocode of B2F (R254). -/
def parseBits32 (cs : List Char) : Except ErrorCode Bits32 := do
  require (decide (1 ≤ cs.length)) .badDigitString
  require (cs.all isDigit) .badDigitString
  let v := stringValue cs
  require (decide (v < 2 ^ 32)) .badDigitString
  return BitVec.ofNat 32 v

/-- B2F (R254, R255) -/
def execB2f (digits : List Char) (s : State) : Host.Outcome State Fault Refusal :=
  finish .bits32 (parseBits32 digits) s

/-- The least `k` with `n < 2^k` (R257). -/
def bitLength (n : Nat) : Nat := if n = 0 then 0 else n.log2 + 1

/-- The pseudocode of I2B (R257). -/
def renderInt (n : Int) : Except ErrorCode (List Char) := do
  require (decide (0 ≤ n)) .negativeInput
  if n = 0 then
    return ['0']
  else
    return digitsOf (bitLength n.toNat) n.toNat

/-- I2B (R257) -/
def execI2b (number : Int) (s : State) : Host.Outcome State Fault Refusal :=
  finish .digits (renderInt number) s

end Sys2Proof.Machine
end

