-- ==== Sys2Proof/Machine/Request.lean ====
section
/-! DEFINITION. The RequestEncoder (40_request_encoder.md): the eight client requests. The order of checks is the order in which
errors are reported (R100, 60_exceptions.md R304). -/

namespace Sys2Proof.Machine

/-- The pseudocode R101 to R104 share: PDU format P-READ. -/
def readRequest (fc : Byte) (maxQuantity address quantity : Int) : Except ErrorCode (List Byte) := do
  require (decide (1 ≤ quantity ∧ quantity ≤ maxQuantity)) .invalidQuantity
  let a ← encU16 address
  let q ← encU16 quantity
  return [fc] ++ a ++ q

/-- REQ.RC (R101) -/
def execReqRc (address quantity : Int) (s : State) : Host.Outcome State Fault Refusal :=
  finish .bytes (readRequest fcReadCoils maxReadBits address quantity) s

/-- REQ.RDI (R102) -/
def execReqRdi (address quantity : Int) (s : State) : Host.Outcome State Fault Refusal :=
  finish .bytes (readRequest fcReadDiscreteInputs maxReadBits address quantity) s

/-- REQ.RHR (R103) -/
def execReqRhr (address quantity : Int) (s : State) : Host.Outcome State Fault Refusal :=
  finish .bytes (readRequest fcReadHoldingRegisters maxReadRegs address quantity) s

/-- REQ.RIR (R104) -/
def execReqRir (address quantity : Int) (s : State) : Host.Outcome State Fault Refusal :=
  finish .bytes (readRequest fcReadInputRegisters maxReadRegs address quantity) s

/-- The pseudocode of REQ.WSC (R106): PDU format P-WSINGLE. The value is checked before the address. -/
def writeCoilRequest (address : Int) (value : CoilIn) : Except ErrorCode (List Byte) := do
  let c ← coilNorm value
  let a ← encU16 address
  let v ← encU16 c
  return [fcWriteSingleCoil] ++ a ++ v

/-- REQ.WSC (R106) -/
def execReqWsc (address : Int) (value : CoilIn) (s : State) : Host.Outcome State Fault Refusal :=
  finish .bytes (writeCoilRequest address value) s

/-- The pseudocode of REQ.WSR (R107): PDU format P-WSINGLE. The address is checked first. -/
def writeRegisterRequest (address value : Int) (signed : Bool) : Except ErrorCode (List Byte) := do
  let a ← encU16 address
  let v ← enc16 value signed
  return [fcWriteSingleRegister] ++ a ++ v

/-- REQ.WSR (R107) -/
def execReqWsr (address value : Int) (signed : Bool) (s : State) : Host.Outcome State Fault Refusal :=
  finish .bytes (writeRegisterRequest address value signed) s

/-- The pseudocode of REQ.WMC (R108): PDU format P-WMC. -/
def writeCoilsRequest (align : ShortAlign) (address : Int) (values : List BitIn) : Except ErrorCode (List Byte) := do
  let n := values.length
  require (decide ((1 : Int) ≤ n ∧ (n : Int) ≤ maxWriteCoils)) .invalidQuantity
  let a ← encU16 address
  let q ← encU16 n
  let bc ← encU8 (byteCountCoils n)
  let p ← pack align values
  return [fcWriteMultipleCoils] ++ a ++ q ++ bc ++ p

/-- REQ.WMC (R108) -/
def execReqWmc (address : Int) (values : List BitIn) (s : State) : Host.Outcome State Fault Refusal :=
  finish .bytes (writeCoilsRequest s.build.packShortAlign address values) s

/-- The pseudocode of REQ.WMR (R109): PDU format P-WMR. One flag applies to every element. -/
def writeRegistersRequest (address : Int) (values : List Int) (signed : Bool) : Except ErrorCode (List Byte) := do
  let n := values.length
  require (decide ((1 : Int) ≤ n ∧ (n : Int) ≤ maxWriteRegs)) .invalidQuantity
  let a ← encU16 address
  let q ← encU16 n
  let bc ← encU8 (byteCountRegs n)
  let vs ← encRegs (values.map (fun v => (v, signed)))
  return [fcWriteMultipleRegisters] ++ a ++ q ++ bc ++ vs

/-- REQ.WMR (R109) -/
def execReqWmr (address : Int) (values : List Int) (signed : Bool) (s : State) : Host.Outcome State Fault Refusal :=
  finish .bytes (writeRegistersRequest address values signed) s

end Sys2Proof.Machine
end

