-- ==== Sys2Proof/Machine/Response.lean ====
section
/-! DEFINITION. The ResponseEncoder (42_response_encoder.md): the eight server responses. The order of checks is the order in
which errors are reported. -/

namespace Sys2Proof.Machine

/-- The pseudocode R171 and R172 share: PDU format P-RBITS. No quantity range is stated, so none is checked (decision D10, log
entry 9); the byte-count field raises `FieldOverflow` above 2040 values. -/
def readBitsResponse (fc : Byte) (align : ShortAlign) (values : List BitIn) : Except ErrorCode (List Byte) := do
  let bc ← encU8 (byteCountCoils values.length)
  let p ← pack align values
  return [fc] ++ bc ++ p

/-- RSP.RC (R171) -/
def execRspRc (values : List BitIn) (s : State) : Host.Outcome State Fault Refusal :=
  finish .bytes (readBitsResponse fcReadCoils s.build.packShortAlign values) s

/-- RSP.RDI (R172) -/
def execRspRdi (values : List BitIn) (s : State) : Host.Outcome State Fault Refusal :=
  finish .bytes (readBitsResponse fcReadDiscreteInputs s.build.packShortAlign values) s

/-- The pseudocode R174 and R175 share: PDU format P-RREGS. -/
def readRegsResponse (fc : Byte) (values : List Int) (signedness : Signedness) : Except ErrorCode (List Byte) := do
  let n := values.length
  require (decide ((1 : Int) ≤ n ∧ (n : Int) ≤ maxReadRegs)) .invalidQuantity
  require (lengthMatches n signedness) .lengthMismatch
  let bc ← encU8 (byteCountRegs n)
  let vs ← encRegs (values.zip (signFlags n signedness))
  return [fc] ++ bc ++ vs

/-- RSP.RHR (R174) -/
def execRspRhr (values : List Int) (signedness : Signedness) (s : State) : Host.Outcome State Fault Refusal :=
  finish .bytes (readRegsResponse fcReadHoldingRegisters values signedness) s

/-- RSP.RIR (R175) -/
def execRspRir (values : List Int) (signedness : Signedness) (s : State) : Host.Outcome State Fault Refusal :=
  finish .bytes (readRegsResponse fcReadInputRegisters values signedness) s

/-- The pseudocode R176 and R177 share: PDU format P-ECHO-V. The two echoed bytes are raw; later ones are ignored. -/
def echoValueResponse (fc : Byte) (address : Int) (echo : List Byte) : Except ErrorCode (List Byte) := do
  let a ← encU16 address
  require (decide (2 ≤ echo.length)) .shortPayload
  return [fc] ++ a ++ echo.take 2

/-- RSP.WSC (R176) -/
def execRspWsc (address : Int) (echo : List Byte) (s : State) : Host.Outcome State Fault Refusal :=
  finish .bytes (echoValueResponse fcWriteSingleCoil address echo) s

/-- RSP.WSR (R177) -/
def execRspWsr (address : Int) (echo : List Byte) (s : State) : Host.Outcome State Fault Refusal :=
  finish .bytes (echoValueResponse fcWriteSingleRegister address echo) s

/-- The pseudocode R178 and R179 share: PDU format P-ECHO-Q. No range beyond the field width (decision D13, log entry 9). -/
def echoQuantityResponse (fc : Byte) (address quantity : Int) : Except ErrorCode (List Byte) := do
  let a ← encU16 address
  let q ← encU16 quantity
  return [fc] ++ a ++ q

/-- RSP.WMC (R178) -/
def execRspWmc (address quantity : Int) (s : State) : Host.Outcome State Fault Refusal :=
  finish .bytes (echoQuantityResponse fcWriteMultipleCoils address quantity) s

/-- RSP.WMR (R179) -/
def execRspWmr (address quantity : Int) (s : State) : Host.Outcome State Fault Refusal :=
  finish .bytes (echoQuantityResponse fcWriteMultipleRegisters address quantity) s

end Sys2Proof.Machine
end

