-- ==== Sys2Proof/Machine/Validator.lean ====
section
/-! DEFINITION. The ResponseValidator (43_response_validator.md), the only decoding operation of the block. -/

namespace Sys2Proof.Machine

/-- `ra` of R212: the address field, unsigned. -/
def validatorAddress (data : List Byte) : Int := dec16 (byteAt data 0) (byteAt data 1) false

/-- `rf` of R212: the value or quantity field, under the flag. -/
def validatorField (data : List Byte) (signed : Bool) : Int := dec16 (byteAt data 2) (byteAt data 3) signed

/-- The comparison of R213 with the expectation the function code needs; an absent one matches nothing (R214). -/
def matchesExpected (ra rf address : Int) : Option Int → Bool
  | none => false
  | some v => decide (ra = address) && decide (rf = v)

/-- The pseudocode of VAL (R213). Every function code other than 5, 6, 15 and 16 gives false. -/
def validate (policy : LenPolicy) (data : List Byte) (fc address : Int) (expectedValue expectedQuantity : Option Int)
    (signed : Bool) : Bool :=
  if lenOK policy data then
    let ra := validatorAddress data
    let rf := validatorField data signed
    if fc = (fcWriteSingleCoil.toNat : Int) ∨ fc = (fcWriteSingleRegister.toNat : Int) then
      matchesExpected ra rf address expectedValue
    else if fc = (fcWriteMultipleCoils.toNat : Int) ∨ fc = (fcWriteMultipleRegisters.toNat : Int) then
      matchesExpected ra rf address expectedQuantity
    else false
  else false

/-- VAL (R210, R213): always `Ok`, true or false. -/
def execVal (data : List Byte) (fc address : Int) (expectedValue expectedQuantity : Option Int) (signed : Bool)
    (s : State) : Host.Outcome State Fault Refusal :=
  .next (s.respond (.verdict (validate s.build.valLenPolicy data fc address expectedValue expectedQuantity signed)))

end Sys2Proof.Machine
end

