-- ==== Sys2Proof/Machine/Dispatch.lean ====
section
/-! DEFINITION. One arm per constructor of Instr, each one direct call of its meaning. -/

namespace Sys2Proof.Machine

def exec (i : Instr) (s : State) : Host.Outcome State Fault Refusal :=
  match i with
  | .reqRc address quantity => Sys2Proof.Machine.execReqRc address quantity s
  | .reqRdi address quantity => Sys2Proof.Machine.execReqRdi address quantity s
  | .reqRhr address quantity => Sys2Proof.Machine.execReqRhr address quantity s
  | .reqRir address quantity => Sys2Proof.Machine.execReqRir address quantity s
  | .reqWsc address value => Sys2Proof.Machine.execReqWsc address value s
  | .reqWsr address value signed => Sys2Proof.Machine.execReqWsr address value signed s
  | .reqWmc address values => Sys2Proof.Machine.execReqWmc address values s
  | .reqWmr address values signed => Sys2Proof.Machine.execReqWmr address values signed s
  | .rspRc values => Sys2Proof.Machine.execRspRc values s
  | .rspRdi values => Sys2Proof.Machine.execRspRdi values s
  | .rspRhr values signedness => Sys2Proof.Machine.execRspRhr values signedness s
  | .rspRir values signedness => Sys2Proof.Machine.execRspRir values signedness s
  | .rspWsc address echo => Sys2Proof.Machine.execRspWsc address echo s
  | .rspWsr address echo => Sys2Proof.Machine.execRspWsr address echo s
  | .rspWmc address quantity => Sys2Proof.Machine.execRspWmc address quantity s
  | .rspWmr address quantity => Sys2Proof.Machine.execRspWmr address quantity s
  | .val data fc address expectedValue expectedQuantity signed => Sys2Proof.Machine.execVal data fc address expectedValue expectedQuantity signed s
  | .exc fc exceptionCode => Sys2Proof.Machine.execExc fc exceptionCode s
  | .pack values => Sys2Proof.Machine.execPack values s
  | .f2b pattern => Sys2Proof.Machine.execF2b pattern s
  | .b2f digits => Sys2Proof.Machine.execB2f digits s
  | .i2b number => Sys2Proof.Machine.execI2b number s

end Sys2Proof.Machine
end

