-- ==== Sys2Proof/Machine/Step.lean ====
section
/-! DEFINITION. One step of the machine: one transaction (10_state.md R24, 70_reset_and_hazards.md R346), and where the host's
check stores an instruction word. -/

namespace Sys2Proof.Machine

/-- One step. A transaction of a defined command word runs its instruction; one of an undefined word ends in
`Err(UndefinedCommand)` (30_encoding.md R62); a reset leaves no result (70_reset_and_hazards.md R340, R341); with nothing
presented nothing changes (log entry 5). -/
def step (s : State) : Host.Outcome State Fault Refusal :=
  match fetch s with
  | .idle => .next s
  | .passed s' => .next s'
  | .rejected e s' => .next (raiseError e s')
  | .instr i s' => exec i s'

/-- `s` with the instruction whose bits are `w` presented next: a host issues its command word with a record of zeros (log
entries 3 and 7). -/
def State.withFetchWord (s : State) (nbits w : Nat) : State := s.present (zeroTransaction (cmdOfBits nbits w))

end Sys2Proof.Machine
end

