-- ==== Sys2Proof/Machine/Flags.lean ====
section
/-! DEFINITION. Condition outputs. The block has NO status flags or condition codes (10_state.md R26): the only condition outputs
are the tag of a result, its error code and the validator's verdict. Beside them stand the numbers of the error codes and the two
tables that say what a result of an operation can be (10_state.md R25, R27; 60_exceptions.md R300). -/

namespace Sys2Proof.Machine

/-- The tag of a result: true for `Ok` (R26). -/
def isOk : Result → Bool
  | .err _ => false
  | _ => true

/-- The error code of a result (R26). -/
def errorOf : Result → Option ErrorCode
  | .err e => some e
  | _ => none

/-- The validator's Bool (R26). -/
def verdictOf : Result → Option Bool
  | .verdict b => some b
  | _ => none

/-- The column "code" of 60_exceptions.md R300. -/
def errorNumber : ErrorCode → Nat
  | .invalidQuantity => 1
  | .illegalValue => 2
  | .fieldOverflow => 3
  | .notABit => 4
  | .shortPayload => 5
  | .lengthMismatch => 6
  | .badDigitString => 7
  | .negativeInput => 8
  | .undefinedCommand => 9

/-- The four kinds of `Ok` (10_state.md R25). -/
inductive ResultKind where
  | bytes
  | verdict
  | bits32
  | digits
deriving DecidableEq, Repr

/-- The kind of an `Ok` result; none for an `Err`. -/
def kindOf : Result → Option ResultKind
  | .bytes _ => some .bytes
  | .verdict _ => some .verdict
  | .bits32 _ => some .bits32
  | .digits _ => some .digits
  | .err _ => none

/-- The column "result" of 10_state.md R27. -/
def resultKind : Op → ResultKind
  | .val => .verdict
  | .b2f => .bits32
  | .f2b | .i2b => .digits
  | .reqRc | .reqRdi | .reqRhr | .reqRir | .reqWsc | .reqWsr | .reqWmc | .reqWmr
  | .rspRc | .rspRdi | .rspRhr | .rspRir | .rspWsc | .rspWsr | .rspWmc | .rspWmr
  | .exc | .pack => .bytes

/-- The column "raised by" of 60_exceptions.md R300, read by operation. -/
def raises : Op → List ErrorCode
  | .reqRc | .reqRdi | .reqRhr | .reqRir => [.invalidQuantity, .fieldOverflow]
  | .reqWsc => [.illegalValue, .fieldOverflow]
  | .reqWsr => [.fieldOverflow]
  | .reqWmc => [.invalidQuantity, .fieldOverflow, .notABit]
  | .reqWmr => [.invalidQuantity, .fieldOverflow]
  | .rspRc | .rspRdi => [.fieldOverflow, .notABit]
  | .rspRhr | .rspRir => [.invalidQuantity, .lengthMismatch, .fieldOverflow]
  | .rspWsc | .rspWsr => [.fieldOverflow, .shortPayload]
  | .rspWmc | .rspWmr => [.fieldOverflow]
  | .val => []
  | .exc => [.fieldOverflow]
  | .pack => [.notABit]
  | .f2b => []
  | .b2f => [.badDigitString]
  | .i2b => [.negativeInput]

end Sys2Proof.Machine
end

