-- ==== Sys2Proof/Machine/Assembler.lean ====
section
/-! DEFINITION. The operation notation of 30_encoding.md R74: the literal forms, the operand table of 10_state.md R27 by which
literals become operands, and the reading of an operation's text. It is notation for the host's use; the block never sees text
(decision D26). -/

namespace Sys2Proof.Machine

/-- The literal forms of R74. An integer serves as `Int`, as the `Int` tag of a `CoilIn`, as `some(v)` and as a `Bits32`; a list
holds integers and booleans. -/
inductive Literal where
  | int (v : Int)
  | bool (b : Bool)
  /-- `s` (true) or `u` (false) -/
  | flag (signed : Bool)
  /-- `per(s, u, ...)` -/
  | per (flags : List Bool)
  | list (es : List BitIn)
  | bytes (bs : List Byte)
  | absent
  | text (cs : List Char)
deriving DecidableEq, Repr

/-- An operand as a script writes it: a literal, or a result variable `rK` (R75). -/
inductive Arg where
  | lit (l : Literal)
  | var (k : Nat)
deriving DecidableEq, Repr

/-- The lanes of an operand record. -/
inductive Lane where
  | address | quantity | coil | value | signed | bits | regs | signedness | echo | data | fc | expectedValue
  | expectedQuantity | exceptionCode | pattern | digits | number
deriving DecidableEq, Repr

/-- The operand table of 10_state.md R27. -/
def operandLanes : Op → List Lane
  | .reqRc | .reqRdi | .reqRhr | .reqRir => [.address, .quantity]
  | .reqWsc => [.address, .coil]
  | .reqWsr => [.address, .value, .signed]
  | .reqWmc => [.address, .bits]
  | .reqWmr => [.address, .regs, .signed]
  | .rspRc | .rspRdi => [.bits]
  | .rspRhr | .rspRir => [.regs, .signedness]
  | .rspWsc | .rspWsr => [.address, .echo]
  | .rspWmc | .rspWmr => [.address, .quantity]
  | .val => [.data, .fc, .address, .expectedValue, .expectedQuantity, .signed]
  | .exc => [.fc, .exceptionCode]
  | .pack => [.bits]
  | .f2b => [.pattern]
  | .b2f => [.digits]
  | .i2b => [.number]

/-- A literal where an `Int` stands. -/
def literalInt : Literal → Option Int
  | .int v => some v
  | _ => none

/-- A literal where a `CoilIn` stands. -/
def literalCoil : Literal → Option CoilIn
  | .int v => some (.int v)
  | .bool b => some (.bool b)
  | _ => none

/-- A literal where a `Bool` stands: `s`, `u`, `true` or `false` (the last two DEDUCED: R74 calls them booleans; log entry
10). -/
def literalBool : Literal → Option Bool
  | .flag b => some b
  | .bool b => some b
  | _ => none

/-- A literal where a `List BitIn` stands. -/
def literalBits : Literal → Option (List BitIn)
  | .list es => some es
  | _ => none

/-- The integers of a list without booleans. -/
def intsOf : List BitIn → Option (List Int)
  | [] => some []
  | .int v :: es => (intsOf es).map (fun vs => v :: vs)
  | .bool _ :: _ => none

/-- A literal where a `List Int` stands. -/
def literalInts : Literal → Option (List Int)
  | .list es => intsOf es
  | _ => none

/-- A literal where a `Signedness` stands. -/
def literalSignedness : Literal → Option Signedness
  | .flag b => some (.uniform b)
  | .per fs => some (.perElement fs)
  | _ => none

/-- A literal where a `Bytes` stands. -/
def literalBytes : Literal → Option (List Byte)
  | .bytes bs => some bs
  | _ => none

/-- A literal where an `Option Int` stands: `none`, or an integer for `some(v)`. -/
def literalOptInt : Literal → Option (Option Int)
  | .absent => some none
  | .int v => some (some v)
  | _ => none

/-- A literal where a `Bits32` stands. -/
def literalBits32 : Literal → Option Bits32
  | .int v => if 0 ≤ v ∧ v < 2 ^ 32 then some (BitVec.ofInt 32 v) else none
  | _ => none

/-- A literal where a `String` stands. -/
def literalText : Literal → Option (List Char)
  | .text cs => some cs
  | _ => none

/-- Put a literal into a lane of a record; none where the literal is not of the lane's kind (10_state.md R28). -/
def setLane (o : OperandRecord) (l : Literal) : Lane → Option OperandRecord
  | .address => (literalInt l).map (fun v => { o with address := v })
  | .quantity => (literalInt l).map (fun v => { o with quantity := v })
  | .coil => (literalCoil l).map (fun v => { o with coil := v })
  | .value => (literalInt l).map (fun v => { o with value := v })
  | .signed => (literalBool l).map (fun v => { o with signed := v })
  | .bits => (literalBits l).map (fun v => { o with bits := v })
  | .regs => (literalInts l).map (fun v => { o with regs := v })
  | .signedness => (literalSignedness l).map (fun v => { o with signedness := v })
  | .echo => (literalBytes l).map (fun v => { o with echo := v })
  | .data => (literalBytes l).map (fun v => { o with data := v })
  | .fc => (literalInt l).map (fun v => { o with fc := v })
  | .expectedValue => (literalOptInt l).map (fun v => { o with expectedValue := v })
  | .expectedQuantity => (literalOptInt l).map (fun v => { o with expectedQuantity := v })
  | .exceptionCode => (literalInt l).map (fun v => { o with exceptionCode := v })
  | .pattern => (literalBits32 l).map (fun v => { o with pattern := v })
  | .digits => (literalText l).map (fun v => { o with digits := v })
  | .number => (literalInt l).map (fun v => { o with number := v })

/-- Fill lanes with literals, in order; none unless there are as many literals as lanes. -/
def fillLanes (o : OperandRecord) : List Lane → List Literal → Option OperandRecord
  | [], [] => some o
  | lane :: lanes, l :: ls => (setLane o l lane).bind (fun o' => fillLanes o' lanes ls)
  | _, _ => none

/-- The operand record of an operation written with literals (R74: operands in the order of R27). -/
def assembleRecord (op : Op) (ls : List Literal) : Option OperandRecord := fillLanes OperandRecord.zero (operandLanes op) ls

/-- The mnemonic of an operation, letter for letter as spec/opcode_table.json has it. -/
def mnemonic : Op → List Char
  | .reqRc => ['R', 'E', 'Q', '.', 'R', 'C']
  | .reqRdi => ['R', 'E', 'Q', '.', 'R', 'D', 'I']
  | .reqRhr => ['R', 'E', 'Q', '.', 'R', 'H', 'R']
  | .reqRir => ['R', 'E', 'Q', '.', 'R', 'I', 'R']
  | .reqWsc => ['R', 'E', 'Q', '.', 'W', 'S', 'C']
  | .reqWsr => ['R', 'E', 'Q', '.', 'W', 'S', 'R']
  | .reqWmc => ['R', 'E', 'Q', '.', 'W', 'M', 'C']
  | .reqWmr => ['R', 'E', 'Q', '.', 'W', 'M', 'R']
  | .rspRc => ['R', 'S', 'P', '.', 'R', 'C']
  | .rspRdi => ['R', 'S', 'P', '.', 'R', 'D', 'I']
  | .rspRhr => ['R', 'S', 'P', '.', 'R', 'H', 'R']
  | .rspRir => ['R', 'S', 'P', '.', 'R', 'I', 'R']
  | .rspWsc => ['R', 'S', 'P', '.', 'W', 'S', 'C']
  | .rspWsr => ['R', 'S', 'P', '.', 'W', 'S', 'R']
  | .rspWmc => ['R', 'S', 'P', '.', 'W', 'M', 'C']
  | .rspWmr => ['R', 'S', 'P', '.', 'W', 'M', 'R']
  | .val => ['V', 'A', 'L']
  | .exc => ['E', 'X', 'C']
  | .pack => ['P', 'A', 'C', 'K']
  | .f2b => ['F', '2', 'B']
  | .b2f => ['B', '2', 'F']
  | .i2b => ['I', '2', 'B']

/-- The operation of a mnemonic. -/
def opOfMnemonic (w : List Char) : Option Op := Op.all.find? (fun op => mnemonic op == w)

/-- The tokens of the notation. -/
inductive Token where
  | word (cs : List Char)
  | text (cs : List Char)
  | comma | lbrack | rbrack | lparen | rparen | equals | colon
deriving DecidableEq, Repr

/-- The double quote. -/
def quoteChar : Char := Char.ofNat 34

/-- The characters that are tokens by themselves. -/
def punctuation (c : Char) : Option Token :=
  if c = ',' then some .comma
  else if c = '[' then some .lbrack
  else if c = ']' then some .rbrack
  else if c = '(' then some .lparen
  else if c = ')' then some .rparen
  else if c = '=' then some .equals
  else if c = ':' then some .colon
  else none

/-- The characters words are made of: letters, digits, the dot of a mnemonic and the minus of an integer. -/
def isWordChar (c : Char) : Bool := c.isAlphanum || c == '.' || c == '-'

/-- Where the reader stands: outside quotes with the word read so far, or inside quotes; both reversed. -/
inductive LexMode where
  | plain (word : List Char)
  | quoted (cs : List Char)
deriving DecidableEq, Repr

/-- Put the word read so far before the tokens that follow it. -/
def flushWord (word : List Char) (ts : List Token) : List Token :=
  if word.isEmpty then ts else .word word.reverse :: ts

/-- The tokens of a text; none where a character is no part of the notation or a quote stays open. -/
def lex : LexMode → List Char → Option (List Token)
  | .plain word, [] => some (flushWord word [])
  | .quoted _, [] => none
  | .quoted cs, c :: rest =>
    if c = quoteChar then (lex (.plain []) rest).map (fun ts => .text cs.reverse :: ts)
    else lex (.quoted (c :: cs)) rest
  | .plain word, c :: rest =>
    if c = ' ' then (lex (.plain []) rest).map (flushWord word)
    else if c = quoteChar then (lex (.quoted []) rest).map (flushWord word)
    else
      match punctuation c with
      | some t => (lex (.plain []) rest).map (fun ts => flushWord word (t :: ts))
      | none => if isWordChar c then lex (.plain (c :: word)) rest else none

/-- A decimal digit. -/
def decimalDigit (c : Char) : Option Nat :=
  if 48 ≤ c.toNat ∧ c.toNat ≤ 57 then some (c.toNat - 48) else none

/-- A hexadecimal digit. -/
def hexDigit (c : Char) : Option Nat :=
  if 65 ≤ c.toNat ∧ c.toNat ≤ 70 then some (c.toNat - 55)
  else if 97 ≤ c.toNat ∧ c.toNat ≤ 102 then some (c.toNat - 87)
  else decimalDigit c

/-- A number in base `base`, added to what has been read. -/
def readDigits (base : Nat) (digit : Char → Option Nat) (acc : Nat) : List Char → Option Nat
  | [] => some acc
  | c :: cs => (digit c).bind (fun d => readDigits base digit (acc * base + d) cs)

/-- A natural number: decimal, or hexadecimal after `0x`. -/
def readNat : List Char → Option Nat
  | [] => none
  | '0' :: 'x' :: c :: cs => readDigits 16 hexDigit 0 (c :: cs)
  | c :: cs => readDigits 10 decimalDigit 0 (c :: cs)

/-- An integer (R74): a natural number, or one after a leading minus. -/
def readInt : List Char → Option Int
  | '-' :: cs => (readNat cs).map (fun n => -(n : Int))
  | cs => (readNat cs).map (fun n => (n : Int))

/-- `true` or `false`. -/
def readBool (w : List Char) : Option Bool :=
  if w = ['t', 'r', 'u', 'e'] then some true
  else if w = ['f', 'a', 'l', 's', 'e'] then some false
  else none

/-- `s` or `u`. -/
def readFlag (w : List Char) : Option Bool :=
  if w = ['s'] then some true else if w = ['u'] then some false else none

/-- A result variable `rK`. -/
def readVar : List Char → Option Nat
  | 'r' :: c :: cs => readDigits 10 decimalDigit 0 (c :: cs)
  | _ => none

/-- An element of a list: a boolean or an integer. -/
def readElement (w : List Char) : Option BitIn :=
  match readBool w with
  | some b => some (.bool b)
  | none => (readInt w).map BitIn.int

/-- An element of a `b[...]`: an integer in 0..255. -/
def readByte (w : List Char) : Option Byte :=
  (readInt w).bind (fun v => if 0 ≤ v ∧ v ≤ 255 then some (BitVec.ofInt 8 v) else none)

/-- A word that is an operand by itself. -/
def readWord (w : List Char) : Option Arg :=
  if w = ['n', 'o', 'n', 'e'] then some (.lit .absent)
  else
    match readBool w, readFlag w, readVar w with
    | some b, _, _ => some (.lit (.bool b))
    | none, some f, _ => some (.lit (.flag f))
    | none, none, some k => some (.var k)
    | none, none, none => (readInt w).map (fun v => .lit (.int v))

/-- All elements of a list, or none. -/
def readAll {α : Type} (f : List Char → Option α) : List (List Char) → Option (List α)
  | [] => some []
  | w :: ws => (f w).bind (fun a => (readAll f ws).map (fun as => a :: as))

/-- One or more words between commas up to the closing token. -/
def wordsUntil (close : Token) : List Token → Option (List (List Char) × List Token)
  | .word w :: t :: rest =>
    if t = close then some ([w], rest)
    else if t = .comma then (wordsUntil close rest).map (fun p => (w :: p.1, p.2))
    else none
  | _ => none

/-- The words of a bracketed list, which may be empty. -/
def wordsIn (close : Token) : List Token → Option (List (List Char) × List Token)
  | [] => none
  | t :: rest => if t = close then some ([], rest) else wordsUntil close (t :: rest)

/-- One operand (R74), and the tokens after it. -/
def readOperand : List Token → Option (Arg × List Token)
  | .text cs :: rest => some (.lit (.text cs), rest)
  | .lbrack :: rest =>
    (wordsIn .rbrack rest).bind (fun p => (readAll readElement p.1).map (fun es => (.lit (.list es), p.2)))
  | .word ['b'] :: .lbrack :: rest =>
    (wordsIn .rbrack rest).bind (fun p => (readAll readByte p.1).map (fun bs => (.lit (.bytes bs), p.2)))
  | .word ['p', 'e', 'r'] :: .lparen :: rest =>
    (wordsIn .rparen rest).bind (fun p => (readAll readFlag p.1).map (fun fs => (.lit (.per fs), p.2)))
  | .word w :: rest => (readWord w).map (fun a => (a, rest))
  | _ => none

/-- Operands between commas; `fuel` is at least the number of operands. -/
def readOperands : Nat → List Token → Option (List Arg)
  | 0, _ => none
  | fuel + 1, ts =>
    match readOperand ts with
    | some (a, []) => some [a]
    | some (a, .comma :: rest) => (readOperands fuel rest).map (fun as => a :: as)
    | _ => none

/-- An operation (R74): its mnemonic followed by its operands, separated by commas. -/
def readOperation : List Token → Option (Op × List Arg)
  | .word w :: ts => (opOfMnemonic w).bind (fun op => (readOperands ts.length ts).map (fun as => (op, as)))
  | _ => none

/-- The literals of operands without variables. -/
def literalsOf : List Arg → Option (List Literal)
  | [] => some []
  | .lit l :: as => (literalsOf as).map (fun ls => l :: ls)
  | .var _ :: _ => none

/-- The instruction an operation's text stands for. -/
def assemble (cs : List Char) : Option Instr :=
  (lex (.plain []) cs).bind (fun ts => (readOperation ts).bind (fun p =>
    (literalsOf p.2).bind (fun ls => (assembleRecord p.1 ls).map p.1.instr)))

end Sys2Proof.Machine
end

