-- ==== Sys2Proof/Machine/HostScript.lean ====
section
/-! DEFINITION. The host script (30_encoding.md R75): a host that issues transactions in order and branches on their results. It
is the host's machine, not the block's: it drives `step` through the interface like any other host (10_state.md R23). -/

namespace Sys2Proof.Machine

/-- A line of a script (R75). -/
inductive ScriptLine where
  /-- `rK = <operation>` -/
  | issue (k : Nat) (op : Op) (args : List Arg)
  /-- `rK = rJ[i:j]` -/
  | slice (k source lo hi : Nat)
  /-- `if rK goto Ln` -/
  | ifTrue (k n : Nat)
  /-- `if err(rK) goto Ln` -/
  | ifErr (k n : Nat)
  /-- `goto Ln` -/
  | goto (n : Nat)
  | halt
deriving DecidableEq, Repr

/-- Whether a script runs, has halted, or was stopped by a host error (R75). -/
inductive ScriptStatus where
  | running
  | halted
  | stopped
deriving DecidableEq, Repr

/-- The state of a host that runs a script: its line index, its result variables, and the machine it drives. -/
structure ScriptHost where
  /-- The number under which it issues transactions. -/
  host : Nat
  hpc : Nat
  vars : List (Nat × Result)
  status : ScriptStatus
  machine : State
deriving DecidableEq, Repr

/-- The start of every script (R75; 95_test_vectors.md section 3): `hpc` 0, no variable bound. -/
def ScriptHost.start (host : Nat) (machine : State) : ScriptHost :=
  { host := host, hpc := 0, vars := [], status := .running, machine := machine }

/-- The value inside `Ok`, as an operand (R75); none for an `Err`. -/
def valueOf : Result → Option Literal
  | .bytes bs => some (.bytes bs)
  | .verdict b => some (.bool b)
  | .bits32 x => some (.int x.toNat)
  | .digits cs => some (.text cs)
  | .err _ => none

/-- The result a variable is bound to. -/
def lookupVar (k : Nat) (vars : List (Nat × Result)) : Option Result :=
  (vars.find? (fun p => p.1 == k)).map (fun p => p.2)

/-- Bind `rK`; an earlier binding of it goes (DESIGN CHOICE, log entry 11). -/
def bindVar (k : Nat) (r : Result) (vars : List (Nat × Result)) : List (Nat × Result) :=
  (k, r) :: vars.filter (fun p => p.1 != k)

/-- Operands with their variables read; none where a variable is unbound or holds an `Err`. -/
def argValues (vars : List (Nat × Result)) : List Arg → Option (List Literal)
  | [] => some []
  | .lit l :: as => (argValues vars as).map (fun ls => l :: ls)
  | .var k :: as =>
    ((lookupVar k vars).bind valueOf).bind (fun l => (argValues vars as).map (fun ls => l :: ls))

/-- Issue one transaction and take the result it returns (10_state.md R24). It is served ahead of the stimuli that already wait
(DESIGN CHOICE, log entry 11). -/
def transact (host : Nat) (cmd : Word16) (o : OperandRecord) (m : State) : Option (State × Result) :=
  match step (m.present { host := host, cmd := cmd, operands := o }) with
  | .next m' => m'.outbox.getLast?.map (fun r => (m', r.result))
  | .fault _ => none
  | .refused _ => none

/-- A host error stops the script (R75). -/
def ScriptHost.stop (h : ScriptHost) : ScriptHost := { h with status := .stopped }

/-- Go to the next line. -/
def ScriptHost.advance (h : ScriptHost) : ScriptHost := { h with hpc := h.hpc + 1 }

/-- `hpc <- n` if `taken`, else the next line. -/
def ScriptHost.branch (h : ScriptHost) (taken : Bool) (n : Nat) : ScriptHost :=
  if taken then { h with hpc := n } else h.advance

/-- Run one line (R75). DESIGN CHOICE (log entry 11), safe, where R75 and 00_scope.md R14 give no meaning: a variable that is not
bound, an operand of the wrong kind, a slice of a result that is no byte sequence, a slice that reaches past its end and a slice
`rJ[i:j]` with `i > j` stop the script, like the host error R75 names. -/
def runLine (h : ScriptHost) : ScriptLine → ScriptHost
  | .issue k op args =>
    match (argValues h.vars args).bind (assembleRecord op) with
    | none => h.stop
    | some o =>
      match transact h.host op.cmd o h.machine with
      | none => h.stop
      | some (m, r) => { h with machine := m, vars := bindVar k r h.vars, hpc := h.hpc + 1 }
  | .slice k source lo hi =>
    match lookupVar source h.vars with
    | some (.bytes bs) =>
      if lo ≤ hi ∧ hi ≤ bs.length then
        { h with vars := bindVar k (.bytes ((bs.drop lo).take (hi - lo))) h.vars, hpc := h.hpc + 1 }
      else h.stop
    | _ => h.stop
  | .ifTrue k n =>
    match lookupVar k h.vars with
    | some r => h.branch (r == .verdict true) n
    | none => h.stop
  | .ifErr k n =>
    match lookupVar k h.vars with
    | some (.err _) => h.branch true n
    | some _ => h.branch false n
    | none => h.stop
  | .goto n => { h with hpc := n }
  | .halt => { h with status := .halted }

/-- One line of a script. A script that has halted or was stopped stays as it is; a line index outside the script stops it
(DESIGN CHOICE, log entry 11). -/
def scriptStep (script : List ScriptLine) (h : ScriptHost) : ScriptHost :=
  match h.status with
  | .halted => h
  | .stopped => h
  | .running =>
    match script[h.hpc]? with
    | some line => runLine h line
    | none => h.stop

/-- A line label `Ln`. -/
def readLabel : List Char → Option Nat
  | 'L' :: c :: cs => readDigits 10 decimalDigit 0 (c :: cs)
  | _ => none

/-- The line a text stands for (R75), without its number. -/
def readLine : List Token → Option ScriptLine
  | [.word ['h', 'a', 'l', 't']] => some .halt
  | [.word ['g', 'o', 't', 'o'], .word l] => (readLabel l).map ScriptLine.goto
  | [.word ['i', 'f'], .word v, .word ['g', 'o', 't', 'o'], .word l] =>
    (readVar v).bind (fun k => (readLabel l).map (fun n => .ifTrue k n))
  | [.word ['i', 'f'], .word ['e', 'r', 'r'], .lparen, .word v, .rparen, .word ['g', 'o', 't', 'o'], .word l] =>
    (readVar v).bind (fun k => (readLabel l).map (fun n => .ifErr k n))
  | [.word v, .equals, .word source, .lbrack, .word lo, .colon, .word hi, .rbrack] =>
    (readVar v).bind (fun k => (readVar source).bind (fun j => (readNat lo).bind (fun a =>
      (readNat hi).map (fun b => .slice k j a b))))
  | .word v :: .equals :: ts =>
    (readVar v).bind (fun k => (readOperation ts).map (fun p => .issue k p.1 p.2))
  | _ => none

/-- The line of a text (R75). -/
def assembleLine (cs : List Char) : Option ScriptLine := (lex (.plain []) cs).bind readLine

end Sys2Proof.Machine
end

