-- ==== Sys2Proof/Machine/Pdu.lean ====
section
/-! DEFINITION. PDU formats (30_encoding.md R70): which format an operation writes and how long it is, where its 16-bit fields
stand, and how a receiver tells the kind and the length of a PDU (R73). No operation of the block calls these: they say what a
reader of its output may rely on. -/

namespace Sys2Proof.Machine

/-- The formats of R70. -/
inductive PduFormat where
  | read | wsingle | wmc | wmr | rbits | rregs | echoV | echoQ | exc | valin
deriving DecidableEq, Repr

/-- The column "used by" of R70; none for the operations whose result is no PDU. -/
def pduFormat : Op → Option PduFormat
  | .reqRc | .reqRdi | .reqRhr | .reqRir => some .read
  | .reqWsc | .reqWsr => some .wsingle
  | .reqWmc => some .wmc
  | .reqWmr => some .wmr
  | .rspRc | .rspRdi => some .rbits
  | .rspRhr | .rspRir => some .rregs
  | .rspWsc | .rspWsr => some .echoV
  | .rspWmc | .rspWmr => some .echoQ
  | .exc => some .exc
  | .val => some .valin
  | .pack | .f2b | .b2f | .i2b => none

/-- The column "length" of R70, for `n` elements (the written quantity, or the number of response values). -/
def formatLength (n : Nat) : PduFormat → Nat
  | .read => 5
  | .wsingle => 5
  | .wmc => 6 + ceilDiv n 8
  | .wmr => 6 + 2 * n
  | .rbits => 2 + ceilDiv n 8
  | .rregs => 2 + 2 * n
  | .echoV => 5
  | .echoQ => 5
  | .exc => 2
  | .valin => 4

/-- How many elements an instruction writes: the `q` and `n` of R70. -/
def elementCount : Instr → Nat
  | .reqWmc _ vs => vs.length
  | .reqWmr _ vs _ => vs.length
  | .rspRc vs => vs.length
  | .rspRdi vs => vs.length
  | .rspRhr vs _ => vs.length
  | .rspRir vs _ => vs.length
  | _ => 0

/-- The big-endian 16-bit field at byte offset `off` (20_memory.md R43). -/
def field16 (pdu : List Byte) (off : Nat) : Nat := (byteAt pdu off).toNat * 256 + (byteAt pdu (off + 1)).toNat

/-- Bit 7 of byte 0 marks an exception PDU (R73). -/
def pduIsException : List Byte → Bool
  | [] => false
  | code :: _ => code.getLsbD 7

/-- Requests and responses of one code differ in layout, so the direction comes from outside the PDU (R73). -/
inductive Direction where
  | request
  | response
deriving DecidableEq, Repr

/-- The length R73 tells from the bytes of a PDU; none where the byte it needs is not there or the code is not in the table. -/
def pduLength (dir : Direction) (pdu : List Byte) : Option Nat :=
  match pdu with
  | [] => none
  | code :: _ =>
    if code.getLsbD 7 then some 2
    else
      match dir with
      | .request =>
        if 1 ≤ code.toNat ∧ code.toNat ≤ 6 then some 5
        else if code = fcWriteMultipleCoils ∨ code = fcWriteMultipleRegisters then pdu[5]?.map (fun b => 6 + b.toNat)
        else none
      | .response =>
        if 1 ≤ code.toNat ∧ code.toNat ≤ 4 then pdu[1]?.map (fun b => 2 + b.toNat)
        else if code = fcWriteSingleCoil ∨ code = fcWriteSingleRegister ∨ code = fcWriteMultipleCoils
            ∨ code = fcWriteMultipleRegisters then some 5
        else none

end Sys2Proof.Machine
end

