-- ==== Sys2Proof/Safety.lean ====
section
/-! DEFINITION. The terms claims use: legal results, the result of a transaction issued alone, and the history of an interface. -/

namespace Sys2Proof.Machine

/-- A result a host may be given: a digit string is not empty and holds only the characters `0` and `1` (45_numeric_codec.md
R250); the other kinds are unconstrained. -/
def legalResult : Result → Bool
  | .digits cs => !cs.isEmpty && cs.all (fun c => c == '0' || c == '1')
  | _ => true

/-- Every result returned so far is legal. -/
def State.legal (s : State) : Bool := s.outbox.all (fun r => legalResult r.result)

/-- The block of build `build` right after reset, with one transaction presented. -/
def State.alone (build : Config) (t : Transaction) : State :=
  { State.reset with build := build, inbox := [.issue t] }

/-- What a transaction returns when it is issued alone (20_memory.md R53). -/
def answerAlone (build : Config) (t : Transaction) : List Response :=
  match step (State.alone build t) with
  | .next s => s.outbox
  | .fault _ => []
  | .refused _ => []

/-- What a stimulus returns when it stands alone: a reset, and a transaction interrupted by one, nothing
(70_reset_and_hazards.md R340, R341). -/
def Stimulus.answers (build : Config) : Stimulus → List Response
  | .issue t => answerAlone build t
  | .reset => []
  | .resetDuring _ => []

/-- What has been returned, followed by what every stimulus still to come returns when it stands alone. -/
def State.history (s : State) : List Response := s.outbox ++ s.inbox.flatMap (Stimulus.answers s.build)

/-- The responses that go to host `h`. -/
def responsesTo (h : Nat) (rs : List Response) : List Response := rs.filter (fun r => r.host == h)

/-- The stimulus is a transaction of host `h`. -/
def Stimulus.isFrom (h : Nat) : Stimulus → Bool
  | .issue t => t.host == h
  | .reset => false
  | .resetDuring _ => false

/-- A step that stops neither with a fault nor with a refusal. -/
def isNext : Host.Outcome State Fault Refusal → Bool
  | .next _ => true
  | .fault _ => false
  | .refused _ => false

end Sys2Proof.Machine
end

