-- ==== Sys2Proof/WellFormed.lean ====
section
/-! DEFINITION. Well-formed instructions: the operands for which the spec lists no exception under the operation's rule. An
instruction that is NOT well formed still runs: its transaction ends in the `Err` the rule names (60_exceptions.md R303). The
checks are stated from the "Exceptions" lines of the rules, not from the pseudocode the machine follows, so that "the result is
`Ok` exactly on well-formed instructions" is a statement about the machine. -/

namespace Sys2Proof

/-- An unsigned 16-bit field holds `v` (30_encoding.md R65). -/
def fitsU16 (v : Int) : Bool := decide (0 ≤ v ∧ v ≤ 65535)

/-- A 16-bit register field holds `v`, under the signed flag (30_encoding.md R65). -/
def fitsReg (signed : Bool) (v : Int) : Bool :=
  if signed then decide (-32768 ≤ v ∧ v ≤ 32767) else decide (0 ≤ v ∧ v ≤ 65535)

/-- An 8-bit field holds `v` (30_encoding.md R64). -/
def fitsU8 (v : Int) : Bool := decide (0 ≤ v ∧ v ≤ 255)

/-- `v` lies in the range of a quantity (40_request_encoder.md R101 to R104). -/
def inRange (lo hi v : Int) : Bool := decide (lo ≤ v ∧ v ≤ hi)

/-- `e` is a bit-like value: a boolean, or the integer 0 or 1 (41_bit_packer.md R150). -/
def BitIn.isBit : BitIn → Bool
  | .bool _ => true
  | .int v => decide (v = 0 ∨ v = 1)

/-- `c` is one of the four accepted coil write values (40_request_encoder.md R105). -/
def CoilIn.isCoil : CoilIn → Bool
  | .bool _ => true
  | .int v => decide (v = 0x0000 ∨ v = 0xFF00)

/-- The signedness has one flag for each of `n` values (42_response_encoder.md R173). -/
def Signedness.covers (n : Nat) : Signedness → Bool
  | .uniform _ => true
  | .perElement fs => decide (fs.length = n)

/-- Every value fits the field its flag describes (42_response_encoder.md R174). -/
def Signedness.allFit (values : List Int) : Signedness → Bool
  | .uniform b => values.all (fitsReg b)
  | .perElement fs => (values.zip fs).all (fun p => fitsReg p.2 p.1)

/-- A digit string whose value fits 32 bits (45_numeric_codec.md R254, R255): non-empty, only `0` and `1`, and at most 32
digits after its leading zeros. -/
def fitsBits32 (cs : List Char) : Bool :=
  !cs.isEmpty && cs.all (fun c => c == '0' || c == '1') && decide ((cs.dropWhile (· == '0')).length ≤ 32)

/-- The operands of `i` are ones for which its rule lists no exception. -/
def Instr.wellFormed : Instr → Bool
  | .reqRc a q => inRange 1 2000 q && fitsU16 a
  | .reqRdi a q => inRange 1 2000 q && fitsU16 a
  | .reqRhr a q => inRange 1 125 q && fitsU16 a
  | .reqRir a q => inRange 1 125 q && fitsU16 a
  | .reqWsc a c => c.isCoil && fitsU16 a
  | .reqWsr a v signed => fitsU16 a && fitsReg signed v
  | .reqWmc a vs => inRange 1 1968 vs.length && fitsU16 a && vs.all BitIn.isBit
  | .reqWmr a vs signed => inRange 1 123 vs.length && fitsU16 a && vs.all (fitsReg signed)
  | .rspRc vs => decide (vs.length ≤ 2040) && vs.all BitIn.isBit
  | .rspRdi vs => decide (vs.length ≤ 2040) && vs.all BitIn.isBit
  | .rspRhr vs sg => inRange 1 125 vs.length && sg.covers vs.length && sg.allFit vs
  | .rspRir vs sg => inRange 1 125 vs.length && sg.covers vs.length && sg.allFit vs
  | .rspWsc a echo => fitsU16 a && decide (2 ≤ echo.length)
  | .rspWsr a echo => fitsU16 a && decide (2 ≤ echo.length)
  | .rspWmc a q => fitsU16 a && fitsU16 q
  | .rspWmr a q => fitsU16 a && fitsU16 q
  | .val _ _ _ _ _ _ => true
  | .exc fc code => fitsU8 fc && fitsU8 code
  | .pack vs => vs.all BitIn.isBit
  | .f2b _ => true
  | .b2f cs => fitsBits32 cs
  | .i2b n => decide (0 ≤ n)

end Sys2Proof
end

