-- ==== Sys2Proof/Certificates/Slice0/Obligations.lean ====
section
/-! DEFINITION. The statements for the provers, and before them the few terms they are stated in, written from the spec's rules and
not from the machine's own operations. Every error of the spec is a result, so every instruction completes on every operand: the
clauses of a statement say with which result. -/

namespace Sys2Proof.Stated

open Sys2Proof.Machine

/-- `s` with result `r` returned to the host being served, and NOTHING else changed: the frame of every instruction. -/
def answered (s : State) (r : Result) : State :=
  { s with outbox := s.outbox ++ [{ host := s.issuer, result := r }] }

/-- The state in which a transaction of host `host` is served. -/
def serving (s : State) (host : Nat) (rest : List Stimulus) : State := { s with inbox := rest, issuer := host }

/-- `w[15:8]` for `w = v mod 65536` (30_encoding.md R65). -/
def hi (v : Int) : Byte := BitVec.ofNat 8 ((v % 65536).toNat / 256)

/-- `w[7:0]` for `w = v mod 65536` (30_encoding.md R65). -/
def lo (v : Int) : Byte := BitVec.ofNat 8 ((v % 65536).toNat % 256)

/-- The byte of a natural number below 256. -/
def byteOf (n : Nat) : Byte := BitVec.ofNat 8 n

/-- `v` fits an unsigned 16-bit field. -/
def Fits16 (v : Int) : Prop := 0 ≤ v ∧ v ≤ 65535

/-- `v` fits an 8-bit field. -/
def Fits8 (v : Int) : Prop := 0 ≤ v ∧ v ≤ 255

/-- `v` fits a 16-bit field under the signed flag (30_encoding.md R65). -/
def RegFits (signed : Bool) (v : Int) : Prop :=
  (signed = true → -32768 ≤ v ∧ v ≤ 32767) ∧ (signed = false → 0 ≤ v ∧ v ≤ 65535)

/-- A bit-like value (41_bit_packer.md R150). -/
def IsBit (e : BitIn) : Prop := (∃ b, e = .bool b) ∨ e = .int 0 ∨ e = .int 1

/-- The bit of a bit-like value (41_bit_packer.md R150). -/
def bitOf (e : BitIn) : Bool := decide (e = .bool true ∨ e = .int 1)

/-- The 22 rows of 30_encoding.md R61, each with the operands 10_state.md R27 gives the operation. -/
def commandTable : List (Word16 × (OperandRecord → Instr)) :=
  [(0x0101, fun o => .reqRc o.address o.quantity), (0x0102, fun o => .reqRdi o.address o.quantity),
   (0x0103, fun o => .reqRhr o.address o.quantity), (0x0104, fun o => .reqRir o.address o.quantity),
   (0x0105, fun o => .reqWsc o.address o.coil), (0x0106, fun o => .reqWsr o.address o.value o.signed),
   (0x010F, fun o => .reqWmc o.address o.bits), (0x0110, fun o => .reqWmr o.address o.regs o.signed),
   (0x0201, fun o => .rspRc o.bits), (0x0202, fun o => .rspRdi o.bits),
   (0x0203, fun o => .rspRhr o.regs o.signedness), (0x0204, fun o => .rspRir o.regs o.signedness),
   (0x0205, fun o => .rspWsc o.address o.echo), (0x0206, fun o => .rspWsr o.address o.echo),
   (0x020F, fun o => .rspWmc o.address o.quantity), (0x0210, fun o => .rspWmr o.address o.quantity),
   (0x0300, fun o => .val o.data o.fc o.address o.expectedValue o.expectedQuantity o.signed),
   (0x0400, fun o => .exc o.fc o.exceptionCode), (0x0500, fun o => .pack o.bits), (0x0600, fun o => .f2b o.pattern),
   (0x0601, fun o => .b2f o.digits), (0x0602, fun o => .i2b o.number)]

/-- Two operand records hold the same value in a lane. -/
def sameLane (a b : OperandRecord) : Lane → Prop
  | .address => a.address = b.address
  | .quantity => a.quantity = b.quantity
  | .coil => a.coil = b.coil
  | .value => a.value = b.value
  | .signed => a.signed = b.signed
  | .bits => a.bits = b.bits
  | .regs => a.regs = b.regs
  | .signedness => a.signedness = b.signedness
  | .echo => a.echo = b.echo
  | .data => a.data = b.data
  | .fc => a.fc = b.fc
  | .expectedValue => a.expectedValue = b.expectedValue
  | .expectedQuantity => a.expectedQuantity = b.expectedQuantity
  | .exceptionCode => a.exceptionCode = b.exceptionCode
  | .pattern => a.pattern = b.pattern
  | .digits => a.digits = b.digits
  | .number => a.number = b.number

/-- The rule R101 to R104 share, for instruction `mk` with command word `cmd`, wire function code `fc` and limit `limit`. -/
def ReadRequestRule (mk : Int → Int → Instr) (cmd : Word16) (fc : Byte) (limit : Int) : Prop :=
  (∀ o, decode cmd o = .ok (mk o.address o.quantity)) ∧
  ∀ (s : State) (a q : Int),
    (1 ≤ q → q ≤ limit → Fits16 a →
      exec (mk a q) s = .next (answered s (.bytes [fc, hi a, lo a, hi q, lo q]))) ∧
    ((q < 1 ∨ limit < q) → exec (mk a q) s = .next (answered s (.err .invalidQuantity))) ∧
    (1 ≤ q → q ≤ limit → ¬ Fits16 a → exec (mk a q) s = .next (answered s (.err .fieldOverflow)))

/-- The rule R171 and R172 share. The packed bytes are those the stand-alone operation PACK returns. -/
def ReadBitsResponseRule (mk : List BitIn → Instr) (cmd : Word16) (fc : Byte) : Prop :=
  (∀ o, decode cmd o = .ok (mk o.bits)) ∧
  ∀ (s : State) (vs : List BitIn),
    (vs.length ≤ 2040 → (∀ e ∈ vs, IsBit e) →
      ∃ p, exec (.pack vs) s = .next (answered s (.bytes p)) ∧
        exec (mk vs) s = .next (answered s (.bytes ([fc, byteOf ((vs.length + 7) / 8)] ++ p)))) ∧
    (2040 < vs.length → exec (mk vs) s = .next (answered s (.err .fieldOverflow))) ∧
    (vs.length ≤ 2040 → (∃ e ∈ vs, ¬ IsBit e) → exec (mk vs) s = .next (answered s (.err .notABit)))

/-- `SignFlag(signedness, i)` (42_response_encoder.md R173). -/
def flagAt (i : Nat) : Signedness → Bool
  | .uniform b => b
  | .perElement fs => fs.getD i false

/-- A per-element list has one flag for each of `n` values (42_response_encoder.md R173). -/
def Covers (n : Nat) (sg : Signedness) : Prop := ∀ fs, sg = .perElement fs → fs.length = n

/-- The rule R174 and R175 share. -/
def ReadRegsResponseRule (mk : List Int → Signedness → Instr) (cmd : Word16) (fc : Byte) : Prop :=
  (∀ o, decode cmd o = .ok (mk o.regs o.signedness)) ∧
  ∀ (s : State) (vs : List Int) (sg : Signedness),
    (1 ≤ vs.length → vs.length ≤ 125 → Covers vs.length sg →
      (∀ i, i < vs.length → RegFits (flagAt i sg) (vs.getD i 0)) →
      exec (mk vs sg) s =
        .next (answered s (.bytes ([fc, byteOf (2 * vs.length)] ++ vs.flatMap (fun v => [hi v, lo v]))))) ∧
    ((vs.length < 1 ∨ 125 < vs.length) → exec (mk vs sg) s = .next (answered s (.err .invalidQuantity))) ∧
    (1 ≤ vs.length → vs.length ≤ 125 → ¬ Covers vs.length sg →
      exec (mk vs sg) s = .next (answered s (.err .lengthMismatch))) ∧
    (1 ≤ vs.length → vs.length ≤ 125 → Covers vs.length sg →
      (∃ i, i < vs.length ∧ ¬ RegFits (flagAt i sg) (vs.getD i 0)) →
      exec (mk vs sg) s = .next (answered s (.err .fieldOverflow)))

/-- The rule R176 and R177 share. -/
def EchoValueRule (mk : Int → List Byte → Instr) (cmd : Word16) (fc : Byte) : Prop :=
  (∀ o, decode cmd o = .ok (mk o.address o.echo)) ∧
  ∀ (s : State) (a : Int) (echo : List Byte),
    (∀ b0 b1 rest, Fits16 a → echo = b0 :: b1 :: rest →
      exec (mk a echo) s = .next (answered s (.bytes [fc, hi a, lo a, b0, b1]))) ∧
    (¬ Fits16 a → exec (mk a echo) s = .next (answered s (.err .fieldOverflow))) ∧
    (Fits16 a → echo.length < 2 → exec (mk a echo) s = .next (answered s (.err .shortPayload)))

/-- The rule R178 and R179 share. -/
def EchoQuantityRule (mk : Int → Int → Instr) (cmd : Word16) (fc : Byte) : Prop :=
  (∀ o, decode cmd o = .ok (mk o.address o.quantity)) ∧
  ∀ (s : State) (a q : Int),
    (Fits16 a → Fits16 q → exec (mk a q) s = .next (answered s (.bytes [fc, hi a, lo a, hi q, lo q]))) ∧
    ((¬ Fits16 a ∨ ¬ Fits16 q) → exec (mk a q) s = .next (answered s (.err .fieldOverflow)))

/-- The bit position of element `i` of `n` in its byte (41_bit_packer.md R153). -/
def bitPosition (align : ShortAlign) (n i : Nat) : Nat :=
  if 8 * (i / 8) + 8 ≤ n then 7 - i % 8
  else if align = .low then n - 8 * (i / 8) - 1 - i % 8
  else 7 - i % 8

/-- The decoded field of a validator payload (43_response_validator.md R212; 30_encoding.md R66). -/
def fieldValue (b2 b3 : Byte) (signed : Bool) : Int :=
  let w : Int := b2.toNat * 256 + b3.toNat
  if signed = true ∧ 32768 ≤ w then w - 65536 else w

/-- A digit character (45_numeric_codec.md R250). -/
def IsDigit (c : Char) : Prop := c = '0' ∨ c = '1'

/-- The value of a digit string, most significant digit first. -/
def binaryValue : List Char → Nat
  | [] => 0
  | c :: cs => (if c = '1' then 2 ^ cs.length else 0) + binaryValue cs

/-- The quantity a request carries (40_request_encoder.md R110), with its limit; none for the requests without one. -/
def requestedQuantity : Instr → Option (Int × Int)
  | .reqRc _ q => some (q, 2000)
  | .reqRdi _ q => some (q, 2000)
  | .reqRhr _ q => some (q, 125)
  | .reqRir _ q => some (q, 125)
  | .reqWmc _ vs => some (vs.length, 1968)
  | .reqWmr _ vs _ => some (vs.length, 123)
  | _ => none

/-- The source's own check fails: the error it raises (60_exceptions.md R304). -/
def sourceError : Instr → Option ErrorCode
  | .reqRc _ q => if q < 1 ∨ 2000 < q then some .invalidQuantity else none
  | .reqRdi _ q => if q < 1 ∨ 2000 < q then some .invalidQuantity else none
  | .reqRhr _ q => if q < 1 ∨ 125 < q then some .invalidQuantity else none
  | .reqRir _ q => if q < 1 ∨ 125 < q then some .invalidQuantity else none
  | .reqWsc _ (.int v) => if v = 0x0000 ∨ v = 0xFF00 then none else some .illegalValue
  | .reqWmc _ vs => if vs.length < 1 ∨ 1968 < vs.length then some .invalidQuantity else none
  | .reqWmr _ vs _ => if vs.length < 1 ∨ 123 < vs.length then some .invalidQuantity else none
  | .rspRhr vs _ => if vs.length < 1 ∨ 125 < vs.length then some .invalidQuantity else none
  | .rspRir vs _ => if vs.length < 1 ∨ 125 < vs.length then some .invalidQuantity else none
  | _ => none

/-- The build parameters cannot matter to the instruction: it packs only full groups (41_bit_packer.md R151), validates a payload
of at most four bytes (43_response_validator.md R211), or does neither. -/
def BuildFree : Instr → Prop
  | .reqWmc _ vs => vs.length % 8 = 0
  | .rspRc vs => vs.length % 8 = 0
  | .rspRdi vs => vs.length % 8 = 0
  | .pack vs => vs.length % 8 = 0
  | .val data _ _ _ _ _ => data.length ≤ 4
  | _ => True

/-- The operation is a request encoder. -/
def IsRequest (op : Op) : Prop := op.unit = 0x01

/-- The operation is a response encoder or the exception encoder. -/
def IsReply (op : Op) : Prop := op.unit = 0x02 ∨ op = .exc

end Sys2Proof.Stated

open Sys2Proof Sys2Proof.Machine Sys2Proof.Stated

/-- 30_encoding.md R61, a few of its words. -/
def Obligations.SampleCommandWordsDecode : Prop :=
  ∀ o : OperandRecord,
    decode 0x0101 o = .ok (.reqRc o.address o.quantity) ∧
    decode 0x010F o = .ok (.reqWmc o.address o.bits) ∧
    decode 0x0204 o = .ok (.rspRir o.regs o.signedness) ∧
    decode 0x0300 o = .ok (.val o.data o.fc o.address o.expectedValue o.expectedQuantity o.signed) ∧
    decode 0x0400 o = .ok (.exc o.fc o.exceptionCode) ∧
    decode 0x0500 o = .ok (.pack o.bits) ∧
    decode 0x0602 o = .ok (.i2b o.number) ∧
    decode 0x0107 o = .error .undefinedCommand

/-- 30_encoding.md R62: the step of a transaction, for each of the 65536 command words. -/
def Obligations.EveryCommandWordSelectsOrIsRejected : Prop :=
  ∀ (s : State) (t : Transaction) (rest : List Stimulus), s.inbox = .issue t :: rest →
    (∀ row ∈ commandTable, t.cmd = row.1 → step s = exec (row.2 t.operands) (serving s t.host rest)) ∧
    ((∀ row ∈ commandTable, t.cmd ≠ row.1) →
      step s = .next (answered (serving s t.host rest) (.err .undefinedCommand)))

/-- 30_encoding.md R61: the assigned words, and for the units 0x01 and 0x02 the selector as the wire function code. -/
def Obligations.WireFunctionCodeIsTheSelector : Prop :=
  (∀ row ∈ commandTable, ∀ o, decode row.1 o = .ok (row.2 o)) ∧
  ∀ row ∈ commandTable, (row.1.extractLsb' 8 8 = 0x01#8 ∨ row.1.extractLsb' 8 8 = 0x02#8) →
    row.1.extractLsb' 0 8 ∈ functionCodes ∧
    ∀ (o : OperandRecord) (s : State) (pdu : List Byte),
      exec (row.2 o) s = .next (answered s (.bytes pdu)) → pdu.head? = some (row.1.extractLsb' 0 8)

/-- Decoding an encoded instruction gives it back, with every operand at every value; a word that decodes is the word of the
instruction it decodes to, and the encoder's record agrees with the decoded one in every lane the operation reads. The lanes (log
entry 4) and the zeros of the encoder's record in every other lane (log entry 7) are the model's own conventions: 10_state.md R27
names the operands of each operation and no common carrier. -/
def Obligations.DecodeAndEncodeAgree : Prop :=
  (∀ i : Instr, decode (encode i).1 (encode i).2 = .ok i) ∧
  (∀ (cmd : Word16) (o : OperandRecord) (i : Instr), decode cmd o = .ok i →
    (encode i).1 = cmd ∧ ∀ lane ∈ operandLanes i.op, sameLane (encode i).2 o lane) ∧
  (∀ (i : Instr) (lane : Lane), lane ∉ operandLanes i.op → sameLane (encode i).2 OperandRecord.zero lane)

/-- 10_state.md R27 (its carrier in lanes is the model's choice, log entry 4): an operation reads the operands of its row, all of
them and no others. -/
def Obligations.OperandTableNamesEveryOperandRead : Prop :=
  ∀ (op : Op) (o o' : OperandRecord), op.instr o = op.instr o' ↔ ∀ lane ∈ operandLanes op, sameLane o o' lane

/-- 10_state.md R24: a step serves the transaction presented next, by running its decoded instruction. -/
def Obligations.StepRunsTheDecodedInstruction : Prop :=
  ∀ (s : State) (t : Transaction) (rest : List Stimulus) (i : Instr), s.inbox = .issue t :: rest →
    decode t.cmd t.operands = .ok i → step s = exec i (serving s t.host rest)

/-- 70_reset_and_hazards.md R340, R342, R343, and the model's own reset values (log entries 2 and 3) and idle step (log entry
5). -/
def Obligations.ResetStateAcceptsTransactions : Prop :=
  State.reset.build = { packShortAlign := .low, valLenPolicy := .exactLength } ∧
  State.reset.inbox = [] ∧ State.reset.issuer = 0 ∧ State.reset.outbox = [] ∧
  step State.reset = .next State.reset ∧
  (∀ (s : State) (rest : List Stimulus), s.inbox = .reset :: rest → step s = .next { s with inbox := rest }) ∧
  ∀ (t : Transaction) (i : Instr), decode t.cmd t.operands = .ok i →
    step (State.reset.present t) = exec i { State.reset with issuer := t.host }

/-- 70_reset_and_hazards.md R341; that the interrupted transaction is gone and the next one is served is log entry 6. -/
def Obligations.InterruptedTransactionReturnsNothing : Prop :=
  (∀ (s : State) (t : Transaction) (rest : List Stimulus), s.inbox = .resetDuring t :: rest →
    step s = .next { s with inbox := rest }) ∧
  ∀ (s : State) (t : Transaction) (rest : List Stimulus), s.inbox = .resetDuring t :: .issue t :: rest →
    Host.Core.run Sys2Proof.core 2 s = step { s with inbox := .issue t :: rest }

/-- 40_request_encoder.md R101 to R104. -/
def Obligations.ReadRequestsFollowTheirRules : Prop :=
  ReadRequestRule .reqRc 0x0101 0x01 2000 ∧ ReadRequestRule .reqRdi 0x0102 0x02 2000 ∧
  ReadRequestRule .reqRhr 0x0103 0x03 125 ∧ ReadRequestRule .reqRir 0x0104 0x04 125

/-- 40_request_encoder.md R105 and R106: the value is checked before the address. -/
def Obligations.WriteSingleCoilRequestFollowsItsRule : Prop :=
  (∀ o, decode 0x0105 o = .ok (.reqWsc o.address o.coil)) ∧
  ∀ (s : State) (a : Int) (c : CoilIn),
    (Fits16 a → (c = .bool true ∨ c = .int 0xFF00) →
      exec (.reqWsc a c) s = .next (answered s (.bytes [0x05, hi a, lo a, 0xFF, 0x00]))) ∧
    (Fits16 a → (c = .bool false ∨ c = .int 0x0000) →
      exec (.reqWsc a c) s = .next (answered s (.bytes [0x05, hi a, lo a, 0x00, 0x00]))) ∧
    (∀ v, c = .int v → v ≠ 0x0000 → v ≠ 0xFF00 → exec (.reqWsc a c) s = .next (answered s (.err .illegalValue))) ∧
    (¬ Fits16 a → ((∃ b, c = .bool b) ∨ c = .int 0x0000 ∨ c = .int 0xFF00) →
      exec (.reqWsc a c) s = .next (answered s (.err .fieldOverflow)))

/-- 40_request_encoder.md R107. -/
def Obligations.WriteSingleRegisterRequestFollowsItsRule : Prop :=
  (∀ o, decode 0x0106 o = .ok (.reqWsr o.address o.value o.signed)) ∧
  ∀ (s : State) (a v : Int) (signed : Bool),
    (Fits16 a → RegFits signed v →
      exec (.reqWsr a v signed) s = .next (answered s (.bytes [0x06, hi a, lo a, hi v, lo v]))) ∧
    ((¬ Fits16 a ∨ ¬ RegFits signed v) → exec (.reqWsr a v signed) s = .next (answered s (.err .fieldOverflow)))

/-- 40_request_encoder.md R108. The packed bytes are those the stand-alone operation PACK returns. -/
def Obligations.WriteMultipleCoilsRequestFollowsItsRule : Prop :=
  (∀ o, decode 0x010F o = .ok (.reqWmc o.address o.bits)) ∧
  ∀ (s : State) (a : Int) (vs : List BitIn),
    (1 ≤ vs.length → vs.length ≤ 1968 → Fits16 a → (∀ e ∈ vs, IsBit e) →
      ∃ p, exec (.pack vs) s = .next (answered s (.bytes p)) ∧
        exec (.reqWmc a vs) s =
          .next (answered s (.bytes
            ([0x0F, hi a, lo a, hi vs.length, lo vs.length, byteOf ((vs.length + 7) / 8)] ++ p)))) ∧
    ((vs.length < 1 ∨ 1968 < vs.length) → exec (.reqWmc a vs) s = .next (answered s (.err .invalidQuantity))) ∧
    (1 ≤ vs.length → vs.length ≤ 1968 → ¬ Fits16 a →
      exec (.reqWmc a vs) s = .next (answered s (.err .fieldOverflow))) ∧
    (1 ≤ vs.length → vs.length ≤ 1968 → Fits16 a → (∃ e ∈ vs, ¬ IsBit e) →
      exec (.reqWmc a vs) s = .next (answered s (.err .notABit)))

/-- 40_request_encoder.md R109. -/
def Obligations.WriteMultipleRegistersRequestFollowsItsRule : Prop :=
  (∀ o, decode 0x0110 o = .ok (.reqWmr o.address o.regs o.signed)) ∧
  ∀ (s : State) (a : Int) (vs : List Int) (signed : Bool),
    (1 ≤ vs.length → vs.length ≤ 123 → Fits16 a → (∀ v ∈ vs, RegFits signed v) →
      exec (.reqWmr a vs signed) s =
        .next (answered s (.bytes
          ([0x10, hi a, lo a, hi vs.length, lo vs.length, byteOf (2 * vs.length)] ++
            vs.flatMap (fun v => [hi v, lo v]))))) ∧
    ((vs.length < 1 ∨ 123 < vs.length) →
      exec (.reqWmr a vs signed) s = .next (answered s (.err .invalidQuantity))) ∧
    (1 ≤ vs.length → vs.length ≤ 123 → (¬ Fits16 a ∨ ∃ v ∈ vs, ¬ RegFits signed v) →
      exec (.reqWmr a vs signed) s = .next (answered s (.err .fieldOverflow)))

/-- The sentence of 40_request_encoder.md the spec marks as derived from R101 to R109: the quantity field, and the exact
boundary. -/
def Obligations.QuantityFieldHoldsTheQuantity : Prop :=
  ∀ (i : Instr) (s : State) (q limit : Int), requestedQuantity i = some (q, limit) →
    (∀ pdu, exec i s = .next (answered s (.bytes pdu)) → (field16 pdu 3 : Int) = q) ∧
    (exec i s = .next (answered s (.err .invalidQuantity)) ↔ q < 1 ∨ limit < q)

/-- 42_response_encoder.md R171 and R172. -/
def Obligations.ReadBitsResponsesFollowTheirRules : Prop :=
  ReadBitsResponseRule .rspRc 0x0201 0x01 ∧ ReadBitsResponseRule .rspRdi 0x0202 0x02

/-- 42_response_encoder.md R173 to R175. -/
def Obligations.ReadRegistersResponsesFollowTheirRules : Prop :=
  ReadRegsResponseRule .rspRhr 0x0203 0x03 ∧ ReadRegsResponseRule .rspRir 0x0204 0x04

/-- 42_response_encoder.md R176 and R177. -/
def Obligations.SingleWriteResponsesFollowTheirRules : Prop :=
  EchoValueRule .rspWsc 0x0205 0x05 ∧ EchoValueRule .rspWsr 0x0206 0x06

/-- 42_response_encoder.md R178 and R179. -/
def Obligations.MultipleWriteResponsesFollowTheirRules : Prop :=
  EchoQuantityRule .rspWmc 0x020F 0x0F ∧ EchoQuantityRule .rspWmr 0x0210 0x10

/-- 41_bit_packer.md R150, R151 and R154: each group of at most eight bits read in order as a number, shifted to the left under
HIGH. -/
def Obligations.PackFollowsTheAlgorithm : Prop :=
  (∀ o, decode 0x0500 o = .ok (.pack o.bits)) ∧
  ∀ (s : State) (vs : List BitIn),
    ((∀ e ∈ vs, IsBit e) →
      ∃ p, exec (.pack vs) s = .next (answered s (.bytes p)) ∧ p.length = (vs.length + 7) / 8 ∧
        ∀ g, g < p.length → ∀ grp, grp = ((vs.drop (8 * g)).take 8).map bitOf →
          (p.getD g 0).toNat =
            grp.foldl (fun n b => 2 * n + b.toNat) 0 *
              (if s.build.packShortAlign = .high then 2 ^ (8 - grp.length) else 1)) ∧
    ((∃ e ∈ vs, ¬ IsBit e) → exec (.pack vs) s = .next (answered s (.err .notABit)))

/-- The placement 41_bit_packer.md marks as derived from R151: where each element goes, and zeros everywhere else. -/
def Obligations.PackPlacesEveryBit : Prop :=
  ∀ (s : State) (vs : List BitIn), (∀ e ∈ vs, IsBit e) →
    ∃ p, exec (.pack vs) s = .next (answered s (.bytes p)) ∧
      (∀ i, i < vs.length →
        (p.getD (i / 8) 0).getLsbD (bitPosition s.build.packShortAlign vs.length i) = bitOf (vs.getD i (.int 0))) ∧
      ∀ g k, g < p.length → k < 8 →
        (∀ i, i < vs.length → i / 8 = g → bitPosition s.build.packShortAlign vs.length i ≠ k) →
        (p.getD g 0).getLsbD k = false

/-- The round trip of 41_bit_packer.md (its last rule, marked as derived): a full group reads back; a short one needs its length
and the alignment as well: lists of different lengths, and lists of one length with different bits, can give the same bytes. -/
def Obligations.FullGroupReadsBackShortGroupDoesNot : Prop :=
  (∀ (s : State) (vs : List BitIn), vs.length = 8 → (∀ e ∈ vs, IsBit e) →
    ∃ b : Byte, exec (.pack vs) s = .next (answered s (.bytes [b])) ∧
      (List.range 8).map (fun i => b.getLsbD (7 - i)) = vs.map bitOf) ∧
  (∀ (s : State) (vs : List BitIn), vs.length = 9 → (∀ e ∈ vs, IsBit e) →
    ∃ b0 b1 : Byte, exec (.pack vs) s = .next (answered s (.bytes [b0, b1]))) ∧
  (∀ s : State, ∃ vs vs' p, vs.length ≠ vs'.length ∧ exec (.pack vs) s = .next (answered s (.bytes p)) ∧
    exec (.pack vs') s = .next (answered s (.bytes p))) ∧
  ∀ s s' : State, s.build.packShortAlign = .low → s'.build.packShortAlign = .high →
    ∃ vs vs' p, vs.length = vs'.length ∧ vs.map bitOf ≠ vs'.map bitOf ∧ exec (.pack vs) s = .next (answered s (.bytes p)) ∧
      exec (.pack vs') s' = .next (answered s' (.bytes p))

/-- 43_response_validator.md R210 to R214: the verdict is always returned, and when it is true. -/
def Obligations.ValidatorFollowsItsRules : Prop :=
  (∀ o, decode 0x0300 o = .ok (.val o.data o.fc o.address o.expectedValue o.expectedQuantity o.signed)) ∧
  ∀ (s : State) (data : List Byte) (fc a : Int) (ev eq : Option Int) (signed : Bool),
    ∃ b, exec (.val data fc a ev eq signed) s = .next (answered s (.verdict b)) ∧
      (b = true ↔
        ∃ b0 b1 b2 b3 rest, data = b0 :: b1 :: b2 :: b3 :: rest ∧
          (s.build.valLenPolicy = .exactLength → rest = []) ∧
          a = (b0.toNat * 256 + b1.toNat : Int) ∧
          (((fc = 5 ∨ fc = 6) ∧ ev = some (fieldValue b2 b3 signed)) ∨
            ((fc = 15 ∨ fc = 16) ∧ eq = some (fieldValue b2 b3 signed))))

/-- The agreement of 43_response_validator.md (its last rule, marked as derived): the acknowledgement of a register write, made
from the request itself, validates against the request's address and value and against no other. -/
def Obligations.ValidatorAgreesWithTheEncoders : Prop :=
  ∀ (s : State) (a v : Int) (signed : Bool), Fits16 a → RegFits signed v →
    ∃ req rsp, exec (.reqWsr a v signed) s = .next (answered s (.bytes req)) ∧
      exec (.rspWsr a ((req.drop 3).take 2)) s = .next (answered s (.bytes rsp)) ∧
      ∀ a' v', exec (.val ((rsp.drop 1).take 4) 6 a' (some v') none signed) s =
        .next (answered s (.verdict (decide (a' = a ∧ v' = v))))

/-- 44_exception_encoder.md R240. -/
def Obligations.ExceptionEncoderFollowsItsRule : Prop :=
  (∀ o, decode 0x0400 o = .ok (.exc o.fc o.exceptionCode)) ∧
  ∀ (s : State) (fc code : Int),
    (Fits8 fc → Fits8 code →
      exec (.exc fc code) s = .next (answered s (.bytes [byteOf (fc.toNat ||| 0x80), byteOf code.toNat]))) ∧
    ((¬ Fits8 fc ∨ ¬ Fits8 code) → exec (.exc fc code) s = .next (answered s (.err .fieldOverflow)))

/-- The remark of 10_state.md on ErrorBias (marked as derived): for the eight function codes, or and add agree. -/
def Obligations.ErrorBiasOrIsAddForTheTable : Prop :=
  ∀ (s : State) (fc : Byte) (code : Int), fc ∈ functionCodes → Fits8 code →
    exec (.exc fc.toNat code) s = .next (answered s (.bytes [fc + errorBias, byteOf code.toNat])) ∧
    fc + errorBias ∈ ([0x81, 0x82, 0x83, 0x84, 0x85, 0x86, 0x8F, 0x90] : List Byte)

/-- 45_numeric_codec.md R252. -/
def Obligations.FloatToStringFollowsItsRule : Prop :=
  (∀ o, decode 0x0600 o = .ok (.f2b o.pattern)) ∧
  ∀ (s : State) (x : Bits32),
    ∃ cs, exec (.f2b x) s = .next (answered s (.digits cs)) ∧ cs.length = 32 ∧
      ∀ i, i < 32 → cs[i]? = some (if x.getLsbD (31 - i) then '1' else '0')

/-- The byte order 45_numeric_codec.md marks as derived from R252: the renderings of the four bytes, the highest first. -/
def Obligations.FloatStringIsFourByteRenderings : Prop :=
  ∀ (s : State) (b3 b2 b1 b0 : Byte),
    exec (.f2b (b3 ++ b2 ++ b1 ++ b0)) s =
      .next (answered s (.digits ([b3, b2, b1, b0].flatMap (fun b : Byte =>
        [7, 6, 5, 4, 3, 2, 1, 0].map (fun k => if b.getLsbD k then '1' else '0')))))

/-- 45_numeric_codec.md R254 and R255. -/
def Obligations.StringToFloatFollowsItsRule : Prop :=
  (∀ o, decode 0x0601 o = .ok (.b2f o.digits)) ∧
  ∀ (s : State) (cs : List Char),
    (cs ≠ [] → (∀ c ∈ cs, IsDigit c) → binaryValue cs < 2 ^ 32 →
      exec (.b2f cs) s = .next (answered s (.bits32 (BitVec.ofNat 32 (binaryValue cs))))) ∧
    ((cs = [] ∨ (∃ c ∈ cs, ¬ IsDigit c) ∨ 2 ^ 32 ≤ binaryValue cs) →
      exec (.b2f cs) s = .next (answered s (.err .badDigitString)))

/-- The inverse laws 45_numeric_codec.md marks as derived from R252 and R254. -/
def Obligations.FloatCodecsAreInverse : Prop :=
  (∀ (s : State) (x : Bits32), ∃ cs, exec (.f2b x) s = .next (answered s (.digits cs)) ∧
    exec (.b2f cs) s = .next (answered s (.bits32 x))) ∧
  ∀ (s : State) (cs : List Char), cs.length = 32 → (∀ c ∈ cs, IsDigit c) →
    ∃ x, exec (.b2f cs) s = .next (answered s (.bits32 x)) ∧ exec (.f2b x) s = .next (answered s (.digits cs))

/-- 45_numeric_codec.md R257: the digits of the number, as few as there can be. -/
def Obligations.IntToStringFollowsItsRule : Prop :=
  (∀ o, decode 0x0602 o = .ok (.i2b o.number)) ∧
  ∀ (s : State) (n : Int),
    (n < 0 → exec (.i2b n) s = .next (answered s (.err .negativeInput))) ∧
    (n = 0 → exec (.i2b n) s = .next (answered s (.digits ['0']))) ∧
    (0 < n → ∃ cs, exec (.i2b n) s = .next (answered s (.digits cs)) ∧ (∀ c ∈ cs, IsDigit c) ∧
      cs.head? = some '1' ∧ n.toNat < 2 ^ cs.length ∧ (∀ k, n.toNat < 2 ^ k → cs.length ≤ k) ∧
      (binaryValue cs : Int) = n)

/-- The comparison 45_numeric_codec.md marks as derived from R252 and R257. -/
def Obligations.IntStringIsFloatStringWithoutLeadingZeros : Prop :=
  ∀ (s : State) (x : Bits32), x ≠ 0 →
    ∃ cs, exec (.f2b x) s = .next (answered s (.digits cs)) ∧ cs.length = 32 ∧
      exec (.i2b x.toNat) s = .next (answered s (.digits (cs.dropWhile (fun c => c == '0'))))

/-- The "Exceptions" lines of the operation rules, together: an instruction returns `Ok` exactly when it is well formed. -/
def Obligations.OkExactlyOnWellFormedInstructions : Prop :=
  ∀ (i : Instr) (s : State),
    i.wellFormed = true ↔ ∃ r, isOk r = true ∧ exec i s = .next (answered s r)

/-- 10_state.md R25 and the table of 60_exceptions.md R300: the kind of result and the errors an operation can return, and that it
does return each of those errors for some operands. -/
def Obligations.ResultKindsAndErrorsAreTheTables : Prop :=
  (∀ (i : Instr) (s : State), ∃ r, exec i s = .next (answered s r) ∧
    (kindOf r = some (resultKind i.op) ∨ ∃ e ∈ raises i.op, r = .err e)) ∧
  ∀ (op : Op) (e : ErrorCode), e ∈ raises op → ∀ s : State, ∃ o : OperandRecord,
    exec (op.instr o) s = .next (answered s (.err e))

/-- The frame of all 22 instructions (10_state.md R20, R31, R32; 20_memory.md R51): nothing changes but that one result goes to the
host being served. -/
def Obligations.EveryInstructionOnlyReturnsAResult : Prop :=
  ∀ (i : Instr) (s s' : State), exec i s = .next s' →
    s'.build = s.build ∧ s'.inbox = s.inbox ∧ s'.issuer = s.issuer ∧
    ∃ r, s'.outbox = s.outbox ++ [{ host := s.issuer, result := r }]

/-- The machine never stops, whatever its state. That no step ever stops is the model's reading of 60_exceptions.md R303 and R306
(log entry 14, DEDUCED), and that a step with an empty inbox answers a next state is its choice (log entry 5, DESIGN CHOICE); that
a transaction takes one step is 70_reset_and_hazards.md R346. -/
def Obligations.EveryStepAnswersANextState : Prop :=
  ∀ s : State, ∃ s', step s = .next s' ∧ s'.build = s.build ∧ s'.inbox = s.inbox.tail

/-- 20_memory.md R51: the same command word with the same operands returns the same result, at any time, whichever hosts issue
it. -/
def Obligations.SameTransactionSameResult : Prop :=
  ∀ (t t' : Transaction) (s s' : State), t.cmd = t'.cmd → t.operands = t'.operands → s.build = s'.build →
    ∃ r, step (s.present t) = .next (answered (serving s t.host s.inbox) r) ∧
      step (s'.present t') = .next (answered (serving s' t'.host s'.inbox) r)

/-- 10_state.md R32 and 41_bit_packer.md R151, 43_response_validator.md R211: the build parameters matter only to short groups and
to long payloads. -/
def Obligations.BuildParametersMatterOnlyWhereNamed : Prop :=
  ∀ (i : Instr) (s : State) (c : Config), BuildFree i →
    ∃ r, exec i s = .next (answered s r) ∧
      exec i { s with build := c } = .next (answered { s with build := c } r)

/-- 20_memory.md R53 as an invariant: what has been returned, followed by what each stimulus to come returns when it stands alone,
is the same before and after every step. -/
def Obligations.HistoryIsKeptByEveryStep : Prop :=
  ∀ s s' : State, step s = .next s' → s'.history = s.history

/-- 20_memory.md R53, with the order of the inbox as the interleaving (log entry 12): whatever the interleaving, each transaction's
result is that of the same transaction issued alone, and each host gets the results of its own transactions. -/
def Obligations.EachHostGetsTheAnswersOfItsOwnTransactions : Prop :=
  ∀ s : State, ∃ s' : State, Host.Core.run Sys2Proof.core s.inbox.length s = Host.Outcome.next s' ∧ s'.inbox = [] ∧
    s'.outbox = s.outbox ++ s.inbox.flatMap (Stimulus.answers s.build) ∧
    ∀ h, responsesTo h s'.outbox =
      responsesTo h s.outbox ++ (s.inbox.filter (Stimulus.isFrom h)).flatMap (Stimulus.answers s.build)

/-- 45_numeric_codec.md R250 as an invariant: every digit string returned is not empty and holds only the characters 0 and 1. -/
def Obligations.LegalResultsAreKeptByEveryStep : Prop :=
  ∀ s s' : State, s.legal = true → step s = .next s' → s'.legal = true

/-- The invariant of legal results holds at reset. -/
def Obligations.ResetResultsAreLegal : Prop := State.reset.legal = true

/-- The "length" column of 30_encoding.md R70, for every operation that returns a PDU. -/
def Obligations.PduLengthsFollowTheFormats : Prop :=
  ∀ (i : Instr) (s : State) (pdu : List Byte) (f : PduFormat), pduFormat i.op = some f →
    exec i s = .next (answered s (.bytes pdu)) → pdu.length = formatLength (elementCount i) f

/-- The receiver's reading 30_encoding.md marks as derived from R70: kind and length are told from the bytes and the direction. -/
def Obligations.ReceiverTellsKindAndLength : Prop :=
  ∀ (i : Instr) (s : State) (pdu : List Byte), exec i s = .next (answered s (.bytes pdu)) →
    (IsRequest i.op → pduIsException pdu = false ∧ pduLength .request pdu = some pdu.length) ∧
    (IsReply i.op → (pduIsException pdu = true ↔ i.op = .exc) ∧ pduLength .response pdu = some pdu.length)

/-- 30_encoding.md R64 and R65. -/
def Obligations.FieldEncodersFollowTheirRules : Prop :=
  (∀ v, (Fits8 v → encU8 v = .ok [byteOf v.toNat]) ∧ (¬ Fits8 v → encU8 v = .error .fieldOverflow)) ∧
  (∀ v signed, (RegFits signed v → enc16 v signed = .ok [hi v, lo v]) ∧
    (¬ RegFits signed v → enc16 v signed = .error .fieldOverflow)) ∧
  ∀ v, encU16 v = enc16 v false

/-- 30_encoding.md R66. -/
def Obligations.FieldDecoderFollowsItsRule : Prop :=
  ∀ b0 b1 signed, dec16 b0 b1 signed = fieldValue b0 b1 signed

/-- 30_encoding.md R67 and R68. -/
def Obligations.ByteCountsFollowTheirRules : Prop :=
  (∀ n : Nat, 8 * byteCountCoils n < n + 8 ∧ n ≤ 8 * byteCountCoils n) ∧
  byteCountCoils 0 = 0 ∧ ∀ n : Nat, byteCountRegs n = n * 2

/-- What 30_encoding.md marks as derived from R65 and R15: a value both flags accept has the same bytes under both, and the other
formula of the byte count; with them, that decoding a field gives back the value encoded in it, which is the model's own
inference from R65 and R66. -/
def Obligations.FieldConsequencesHold : Prop :=
  (∀ v, RegFits true v → RegFits false v → enc16 v true = enc16 v false) ∧
  (∀ n : Nat, 1 ≤ n → byteCountCoils n = (n - 1) / 8 + 1) ∧
  ∀ v signed, RegFits signed v → ∃ b0 b1, enc16 v signed = .ok [b0, b1] ∧ dec16 b0 b1 signed = v

/-- 60_exceptions.md R304: the source's errors come before the spec's own, whatever the other operands are. -/
def Obligations.SourceErrorsComeFirst : Prop :=
  ∀ (i : Instr) (s : State) (e : ErrorCode), sourceError i = some e → exec i s = .next (answered s (.err e))

/-- 30_encoding.md R75, line by line. Two points are the model's choice and not the rule's (log entry 11): a variable bound twice
holds its last result, and a script's transaction is served at once, ahead of the stimuli that already wait. -/
def Obligations.HostScriptLinesFollowTheirRules : Prop :=
  (∀ host m, (ScriptHost.start host m).hpc = 0) ∧
  (∀ k r vars, lookupVar k (bindVar k r vars) = some r ∧
    ∀ j, j ≠ k → lookupVar j (bindVar k r vars) = lookupVar j vars) ∧
  ∀ (script : List ScriptLine) (h : ScriptHost), h.status = .running →
    (∀ n, script[h.hpc]? = some (.goto n) → scriptStep script h = { h with hpc := n }) ∧
    (script[h.hpc]? = some .halt → scriptStep script h = { h with status := .halted }) ∧
    (∀ k n r, script[h.hpc]? = some (.ifTrue k n) → lookupVar k h.vars = some r →
      scriptStep script h = { h with hpc := if r = .verdict true then n else h.hpc + 1 }) ∧
    (∀ k n r, script[h.hpc]? = some (.ifErr k n) → lookupVar k h.vars = some r →
      scriptStep script h = { h with hpc := if isOk r then h.hpc + 1 else n }) ∧
    (∀ k j lo hi bs, script[h.hpc]? = some (.slice k j lo hi) → lookupVar j h.vars = some (.bytes bs) → lo ≤ hi →
      hi ≤ bs.length → scriptStep script h =
        { h with vars := bindVar k (.bytes ((bs.take hi).drop lo)) h.vars, hpc := h.hpc + 1 }) ∧
    ∀ k op args, script[h.hpc]? = some (.issue k op args) →
      (∀ ls o, argValues h.vars args = some ls → assembleRecord op ls = some o →
        ∃ r, exec (op.instr o) (serving h.machine h.host h.machine.inbox) =
            .next (answered (serving h.machine h.host h.machine.inbox) r) ∧
          scriptStep script h =
            { h with
              machine := answered (serving h.machine h.host h.machine.inbox) r
              vars := bindVar k r h.vars
              hpc := h.hpc + 1 }) ∧
      ((∃ j e, Arg.var j ∈ args ∧ lookupVar j h.vars = some (.err e)) →
        scriptStep script h = { h with status := .stopped })

/-- 30_encoding.md R74: the literal forms are enough to write every operation with every operand. -/
def Obligations.NotationWritesEveryInstruction : Prop :=
  ∀ i : Instr, ∃ ls : List Literal, (assembleRecord i.op ls).map i.op.instr = some i
end

