-- ==== Sys2Proof/Laws/Operands.lean ====
section
/-! SUPPORT. What each operand operation can answer, once: the result where its check holds, the error where it does not. -/

namespace Sys2Proof.Machine

theorem require_eq (c : Bool) (e : ErrorCode) : require c e = if c then .ok () else .error e := rfl

@[simp] theorem require_true (e : ErrorCode) : require true e = .ok () := rfl
@[simp] theorem require_false (e : ErrorCode) : require false e = .error e := rfl

@[simp] theorem ok_bind {α β : Type} (a : α) (f : α → Except ErrorCode β) : (Except.ok a >>= f) = f a := rfl
@[simp] theorem error_bind {α β : Type} (e : ErrorCode) (f : α → Except ErrorCode β) :
    (Except.error e >>= f) = Except.error e := rfl

theorem encU8_eq (v : Int) :
    encU8 v = if fitsU8 v then .ok [BitVec.ofInt 8 v] else .error .fieldOverflow := by
  unfold encU8 fitsU8
  by_cases h : 0 ≤ v ∧ v ≤ 255 <;> simp [h]

theorem enc16_eq (v : Int) (signed : Bool) :
    enc16 v signed =
      if fitsReg signed v then .ok [hiByte (BitVec.ofInt 16 v), loByte (BitVec.ofInt 16 v)]
      else .error .fieldOverflow := by
  have h : (if signed then decide (-32768 ≤ v ∧ v ≤ 32767) else decide (0 ≤ v ∧ v ≤ 65535)) = fitsReg signed v := rfl
  unfold enc16
  rw [h]
  cases fitsReg signed v <;> rfl

theorem encU16_eq (v : Int) :
    encU16 v =
      if fitsU16 v then .ok [hiByte (BitVec.ofInt 16 v), loByte (BitVec.ofInt 16 v)] else .error .fieldOverflow :=
  enc16_eq v false

theorem coilNorm_eq (c : CoilIn) :
    coilNorm c = if c.isCoil then .ok (if c = .bool true ∨ c = .int 0xFF00 then 0xFF00 else 0) else .error .illegalValue := by
  cases c with
  | bool b => cases b <;> rfl
  | int v =>
    simp only [coilNorm, coilOn, coilOff, CoilIn.isCoil]
    by_cases h0 : v = 0
    · simp [h0]
    · by_cases h1 : v = 0xFF00 <;> simp [h0, h1]

/-- The bit of a bit-like value. -/
def bitSense : BitIn → Bool
  | .bool b => b
  | .int v => decide (v = 1)

theorem bitval_eq (e : BitIn) : bitval e = if e.isBit then .ok (bitSense e) else .error .notABit := by
  cases e with
  | bool b => rfl
  | int v =>
    simp only [bitval, BitIn.isBit, bitSense]
    by_cases h0 : v = 0
    · simp [h0]
    · by_cases h1 : v = 1 <;> simp [h0, h1]

theorem bitvals_eq (es : List BitIn) :
    bitvals es = if es.all BitIn.isBit then .ok (es.map bitSense) else .error .notABit := by
  induction es with
  | nil => rfl
  | cons e es ih =>
    simp only [bitvals, bitval_eq, ih, List.all_cons, List.map_cons]
    cases e.isBit <;> cases es.all BitIn.isBit <;> rfl

/-- The two bytes of a register value. -/
def regBytes (v : Int) : List Byte := [hiByte (BitVec.ofInt 16 v), loByte (BitVec.ofInt 16 v)]

theorem encRegs_eq (ps : List (Int × Bool)) :
    encRegs ps =
      if ps.all (fun p => fitsReg p.2 p.1) then .ok (ps.flatMap (fun p => regBytes p.1)) else .error .fieldOverflow := by
  induction ps with
  | nil => rfl
  | cons p ps ih =>
    obtain ⟨v, signed⟩ := p
    simp only [encRegs, enc16_eq, ih, List.all_cons, List.flatMap_cons]
    cases fitsReg signed v <;> cases ps.all (fun p => fitsReg p.2 p.1) <;> rfl

theorem signFlags_length (n : Nat) (sg : Signedness) (h : lengthMatches n sg = true) : (signFlags n sg).length = n := by
  cases sg with
  | uniform b => exact List.length_replicate
  | perElement fs => simpa [lengthMatches, signFlags] using h

end Sys2Proof.Machine
end

