-- ==== Sys2Proof/Laws/PerInstr.lean ====
section
/-! SUPPORT. The family Selects: the command word the encoder gives an instruction selects that instruction's operation
(30_encoding.md R61). -/

namespace Sys2Proof.Laws

/-- The command word of an operation selects it: no two rows of 30_encoding.md R61 share a word. -/
theorem decodeOp_cmd (op : Op) : decodeOp op.cmd = some op := by
  cases op <;> decide

end Sys2Proof.Laws

namespace Sys2Proof.Laws.Selects

/-- The command word of `i` selects the operation of `i`. -/
def Statement (i : Instr) : Prop := decodeOp (encode i).1 = some i.op

theorem reqRc (a q : Int) : Statement (.reqRc a q) := decodeOp_cmd _
theorem reqRdi (a q : Int) : Statement (.reqRdi a q) := decodeOp_cmd _
theorem reqRhr (a q : Int) : Statement (.reqRhr a q) := decodeOp_cmd _
theorem reqRir (a q : Int) : Statement (.reqRir a q) := decodeOp_cmd _
theorem reqWsc (a : Int) (c : CoilIn) : Statement (.reqWsc a c) := decodeOp_cmd _
theorem reqWsr (a v : Int) (b : Bool) : Statement (.reqWsr a v b) := decodeOp_cmd _
theorem reqWmc (a : Int) (vs : List BitIn) : Statement (.reqWmc a vs) := decodeOp_cmd _
theorem reqWmr (a : Int) (vs : List Int) (b : Bool) : Statement (.reqWmr a vs b) := decodeOp_cmd _
theorem rspRc (vs : List BitIn) : Statement (.rspRc vs) := decodeOp_cmd _
theorem rspRdi (vs : List BitIn) : Statement (.rspRdi vs) := decodeOp_cmd _
theorem rspRhr (vs : List Int) (sg : Signedness) : Statement (.rspRhr vs sg) := decodeOp_cmd _
theorem rspRir (vs : List Int) (sg : Signedness) : Statement (.rspRir vs sg) := decodeOp_cmd _
theorem rspWsc (a : Int) (echo : List Byte) : Statement (.rspWsc a echo) := decodeOp_cmd _
theorem rspWsr (a : Int) (echo : List Byte) : Statement (.rspWsr a echo) := decodeOp_cmd _
theorem rspWmc (a q : Int) : Statement (.rspWmc a q) := decodeOp_cmd _
theorem rspWmr (a q : Int) : Statement (.rspWmr a q) := decodeOp_cmd _
theorem val (data : List Byte) (fc a : Int) (ev eq : Option Int) (b : Bool) : Statement (.val data fc a ev eq b) := decodeOp_cmd _
theorem exc (fc code : Int) : Statement (.exc fc code) := decodeOp_cmd _
theorem pack (vs : List BitIn) : Statement (.pack vs) := decodeOp_cmd _
theorem f2b (x : Bits32) : Statement (.f2b x) := decodeOp_cmd _
theorem b2f (cs : List Char) : Statement (.b2f cs) := decodeOp_cmd _
theorem i2b (n : Int) : Statement (.i2b n) := decodeOp_cmd _

end Sys2Proof.Laws.Selects
end

