-- ==== Sys2Proof/Laws/State.lean ====
section
/-! SUPPORT. One lemma per field per update of the state, so that no proof unfolds a record update. -/

namespace Sys2Proof.Machine

@[simp] theorem respond_build (s : State) (r : Result) : (s.respond r).build = s.build := rfl
@[simp] theorem respond_inbox (s : State) (r : Result) : (s.respond r).inbox = s.inbox := rfl
@[simp] theorem respond_issuer (s : State) (r : Result) : (s.respond r).issuer = s.issuer := rfl
@[simp] theorem respond_outbox (s : State) (r : Result) :
    (s.respond r).outbox = s.outbox ++ [{ host := s.issuer, result := r }] := rfl

@[simp] theorem accept_build (s : State) (t : Transaction) (rest : List Stimulus) :
    (s.accept t rest).build = s.build := rfl
@[simp] theorem accept_inbox (s : State) (t : Transaction) (rest : List Stimulus) :
    (s.accept t rest).inbox = rest := rfl
@[simp] theorem accept_issuer (s : State) (t : Transaction) (rest : List Stimulus) :
    (s.accept t rest).issuer = t.host := rfl
@[simp] theorem accept_outbox (s : State) (t : Transaction) (rest : List Stimulus) :
    (s.accept t rest).outbox = s.outbox := rfl

@[simp] theorem pass_build (s : State) (rest : List Stimulus) : (s.pass rest).build = s.build := rfl
@[simp] theorem pass_inbox (s : State) (rest : List Stimulus) : (s.pass rest).inbox = rest := rfl
@[simp] theorem pass_issuer (s : State) (rest : List Stimulus) : (s.pass rest).issuer = s.issuer := rfl
@[simp] theorem pass_outbox (s : State) (rest : List Stimulus) : (s.pass rest).outbox = s.outbox := rfl

@[simp] theorem present_build (s : State) (t : Transaction) : (s.present t).build = s.build := rfl
@[simp] theorem present_inbox (s : State) (t : Transaction) : (s.present t).inbox = .issue t :: s.inbox := rfl
@[simp] theorem present_issuer (s : State) (t : Transaction) : (s.present t).issuer = s.issuer := rfl
@[simp] theorem present_outbox (s : State) (t : Transaction) : (s.present t).outbox = s.outbox := rfl

end Sys2Proof.Machine
end

