-- ==== Sys2Proof/Laws/Step.lean ====
section
/-! SUPPORT. What an instruction and a step can do, once: every meaning returns exactly one result, and a step is one of four
cases. -/

namespace Sys2Proof.Machine

theorem finish_responds {α : Type} (mk : α → Result) (r : Except ErrorCode α) (s : State) :
    finish mk r s = .next (s.respond (match r with | .ok v => mk v | .error e => .err e)) := by
  cases r <;> rfl

/-- Every instruction answers a next state that differs only in one more result. -/
theorem exec_responds (i : Instr) (s : State) : ∃ r, exec i s = .next (s.respond r) := by
  cases i <;> first | exact ⟨_, finish_responds _ _ _⟩ | exact ⟨_, rfl⟩

theorem fetch_idle {s : State} (h : s.inbox = []) : fetch s = .idle := by
  simp [fetch, h]

theorem fetch_reset {s : State} {rest : List Stimulus} (h : s.inbox = .reset :: rest) :
    fetch s = .passed (s.pass rest) := by
  simp [fetch, h]

theorem fetch_resetDuring {s : State} {t : Transaction} {rest : List Stimulus} (h : s.inbox = .resetDuring t :: rest) :
    fetch s = .passed (s.pass rest) := by
  simp [fetch, h]

theorem fetch_issue {s : State} {t : Transaction} {rest : List Stimulus} (h : s.inbox = .issue t :: rest) :
    fetch s =
      match decode t.cmd t.operands with
      | .ok i => .instr i (s.accept t rest)
      | .error e => .rejected e (s.accept t rest) := by
  cases hd : decode t.cmd t.operands <;> simp [fetch, h, hd]

/-- A step that finds a transaction returns one result to the host that issued it. -/
theorem step_issue {s : State} {t : Transaction} {rest : List Stimulus} (h : s.inbox = .issue t :: rest) :
    ∃ r, step s = .next ((s.accept t rest).respond r) := by
  rw [step, fetch_issue h]
  cases decode t.cmd t.operands with
  | error e => exact ⟨_, rfl⟩
  | ok i => exact exec_responds i _

/-- Everything a step can do. -/
theorem step_cases (s : State) :
    (s.inbox = [] ∧ step s = .next s) ∨
    (∃ rest, s.inbox = .reset :: rest ∧ step s = .next (s.pass rest)) ∨
    (∃ t rest, s.inbox = .resetDuring t :: rest ∧ step s = .next (s.pass rest)) ∨
    (∃ t rest r, s.inbox = .issue t :: rest ∧ step s = .next ((s.accept t rest).respond r)) := by
  rcases h : s.inbox with _ | ⟨x, rest⟩
  · exact .inl ⟨rfl, by rw [step, fetch_idle h]⟩
  · cases x with
    | reset => exact .inr (.inl ⟨rest, rfl, by rw [step, fetch_reset h]⟩)
    | resetDuring t => exact .inr (.inr (.inl ⟨t, rest, rfl, by rw [step, fetch_resetDuring h]⟩))
    | issue t =>
      obtain ⟨r, hr⟩ := step_issue h
      exact .inr (.inr (.inr ⟨t, rest, r, rfl, hr⟩))

end Sys2Proof.Machine
end

