-- ==== Sys2Proof/Tests/Slice0.lean ====
section
/-! SUPPORT. The model's own tests. Expected results are the vectors of 95_test_vectors.md, the examples and corner cases of the
rules, or the encoding tables; none is the model's own answer. Every test is about one step on a small state. The theorems named
witness_… show operands that meet the hypotheses of the statements, clause by clause, at the ends of the ranges. -/

namespace Sys2Proof.Tests

open Sys2Proof.Machine Sys2Proof.Stated

/-- The result a step returned last. -/
def resultOf : Host.Outcome State Fault Refusal → Option Result
  | .next s => s.outbox.getLast?.map (fun r => r.result)
  | .fault _ => none
  | .refused _ => none

/-- The build with PACK_SHORT_ALIGN = HIGH. -/
def highBuild : State := { State.reset with build := { packShortAlign := .high, valLenPolicy := .exactLength } }

/-- The build with VAL_LEN_POLICY = PREFIX. -/
def prefixBuild : State := { State.reset with build := { packShortAlign := .low, valLenPolicy := .prefixLength } }

/-- The result of an instruction under the default build. -/
def run (i : Instr) : Option Result := resultOf (exec i State.reset)

/-- The result of an instruction under HIGH. -/
def runHigh (i : Instr) : Option Result := resultOf (exec i highBuild)

/-- The result of an instruction under PREFIX. -/
def runPrefix (i : Instr) : Option Result := resultOf (exec i prefixBuild)

/-- A byte-sequence result. -/
def ok (bs : List Byte) : Option Result := some (.bytes bs)

/-- An error result. -/
def fails (e : ErrorCode) : Option Result := some (.err e)

/-- A digit string from the numbers of its digits. -/
def text (ns : List Nat) : List Char := ns.map (fun n => if n = 1 then '1' else '0')

/-- Integers as bit-like values. -/
def ints (vs : List Int) : List BitIn := vs.map BitIn.int

/-- The length and the first bytes of a byte-sequence result. -/
def headOf (k : Nat) : Option Result → Option (Nat × List Byte)
  | some (.bytes bs) => some (bs.length, bs.take k)
  | _ => none

/-- The instruction of a command word over the record of zeros, where the decoder accepts the word. -/
def ofWord (cmd : Word16) : Option Instr := decodeTableWord 16 cmd.toNat

/-! ### Decoding: the words of 30_encoding.md R61, unit above selector, written out in bits -/

theorem test_decode_request_words :
    ofWord 0b00000001_00000001 = some (.reqRc 0 0) ∧ ofWord 0b00000001_00000010 = some (.reqRdi 0 0) ∧
    ofWord 0b00000001_00000011 = some (.reqRhr 0 0) ∧ ofWord 0b00000001_00000100 = some (.reqRir 0 0) ∧
    ofWord 0b00000001_00000101 = some (.reqWsc 0 (.int 0)) ∧ ofWord 0b00000001_00000110 = some (.reqWsr 0 0 false) ∧
    ofWord 0b00000001_00001111 = some (.reqWmc 0 []) ∧ ofWord 0b00000001_00010000 = some (.reqWmr 0 [] false) := by
  decide

theorem test_decode_response_words :
    ofWord 0b00000010_00000001 = some (.rspRc []) ∧ ofWord 0b00000010_00000010 = some (.rspRdi []) ∧
    ofWord 0b00000010_00000011 = some (.rspRhr [] (.uniform false)) ∧
    ofWord 0b00000010_00000100 = some (.rspRir [] (.uniform false)) ∧
    ofWord 0b00000010_00000101 = some (.rspWsc 0 []) ∧ ofWord 0b00000010_00000110 = some (.rspWsr 0 []) ∧
    ofWord 0b00000010_00001111 = some (.rspWmc 0 0) ∧ ofWord 0b00000010_00010000 = some (.rspWmr 0 0) := by
  decide

theorem test_decode_other_words :
    ofWord 0b00000011_00000000 = some (.val [] 0 0 none none false) ∧ ofWord 0b00000100_00000000 = some (.exc 0 0) ∧
    ofWord 0b00000101_00000000 = some (.pack []) ∧ ofWord 0b00000110_00000000 = some (.f2b 0) ∧
    ofWord 0b00000110_00000001 = some (.b2f []) ∧ ofWord 0b00000110_00000010 = some (.i2b 0) := by decide

/-- 95_test_vectors.md 2.1, and the neighbours of every assigned block of selectors. -/
theorem test_decode_rejects :
    ([0x0107, 0x0100, 0x010E, 0x0111, 0x0207, 0x0200, 0x0211, 0x0301, 0x0401, 0x0501, 0x0603, 0x0000, 0x0001, 0x0700,
      0x0800, 0x8101, 0x0181, 0xFF01, 0xFFFF] : List Word16).all (fun w => decodeOp w == none) = true := by decide

/-- Every operand record is rejected with an unassigned word. -/
theorem test_decode_names_the_error : ∀ o, decode 0x0107 o = .error .undefinedCommand := fun _ => rfl

/-- 95_test_vectors.md 2.1, first and last row: the operand record reaches the instruction, and decoding comes before any operand
check. -/
theorem test_decode_reads_operands :
    decode 0x0101 { OperandRecord.zero with address := 0, quantity := 10 } = .ok (.reqRc 0 10) ∧
    resultOf (step (State.reset.present
      { host := 7, cmd := 0x0107, operands := { OperandRecord.zero with quantity := 2001 } })) = fails .undefinedCommand := by
  decide

/-- The words of R61 from the encoder. -/
theorem test_encode_words :
    (encode (.reqRc 0 1)).1 = 0x0101 ∧ (encode (.reqWmr 0 [] true)).1 = 0x0110 ∧ (encode (.rspWmc 1 2)).1 = 0x020F ∧
    (encode (.val [] 5 0 none none true)).1 = 0x0300 ∧ (encode (.i2b 5)).1 = 0x0602 ∧
    (encode (.exc 3 2)).2 = { OperandRecord.zero with fc := 3, exceptionCode := 2 } := by decide

/-- What the host asks: a row's word, decoded, and run as the first instruction after reset. -/
theorem test_fetch_word_runs_first :
    resultOf (step (State.reset.withFetchWord 16 0x0602)) = some (.digits ['0']) ∧
    resultOf (step (State.reset.withFetchWord 16 0x0500)) = ok [] ∧
    resultOf (step (State.reset.withFetchWord 16 0x0603)) = fails .undefinedCommand := by decide

/-! ### Well-formed instructions: for each check a term it refuses, beside one it accepts -/

theorem test_wellFormed_quantities :
    (Instr.reqRc 0 1).wellFormed = true ∧ (Instr.reqRc 0 2000).wellFormed = true ∧ (Instr.reqRc 0 0).wellFormed = false ∧
    (Instr.reqRc 0 2001).wellFormed = false ∧ (Instr.reqRdi 0 2001).wellFormed = false ∧
    (Instr.reqRhr 0 125).wellFormed = true ∧ (Instr.reqRhr 0 126).wellFormed = false ∧
    (Instr.reqRir 0 126).wellFormed = false ∧ (Instr.reqWmc 0 []).wellFormed = false ∧
    (Instr.reqWmr 0 [] true).wellFormed = false ∧ (Instr.rspRhr [] (.uniform true)).wellFormed = false ∧
    (Instr.rspRir [] (.uniform true)).wellFormed = false := by decide

theorem test_wellFormed_lengths :
    (Instr.reqWmc 0 (List.replicate 1968 (.int 1))).wellFormed = true ∧
    (Instr.reqWmc 0 (List.replicate 1969 (.int 1))).wellFormed = false ∧
    (Instr.reqWmr 0 (List.replicate 124 0) false).wellFormed = false ∧
    (Instr.rspRc (List.replicate 2041 (.int 0))).wellFormed = false ∧
    (Instr.rspRdi (List.replicate 2041 (.int 0))).wellFormed = false ∧
    (Instr.rspRhr (List.replicate 126 0) (.uniform false)).wellFormed = false := by decide +kernel

theorem test_wellFormed_fields :
    (Instr.reqRc 65535 1).wellFormed = true ∧ (Instr.reqRc 65536 1).wellFormed = false ∧
    (Instr.reqRdi (-1) 1).wellFormed = false ∧ (Instr.reqWsc 65536 (.bool true)).wellFormed = false ∧
    (Instr.reqWsr 65536 0 true).wellFormed = false ∧ (Instr.reqWsr 0 32768 true).wellFormed = false ∧
    (Instr.reqWsr 0 (-1) false).wellFormed = false ∧ (Instr.reqWmc 65536 [.int 1]).wellFormed = false ∧
    (Instr.reqWmr 65536 [0] true).wellFormed = false ∧ (Instr.reqWmr 0 [0, -1] false).wellFormed = false ∧
    (Instr.rspRhr [-1] (.uniform false)).wellFormed = false ∧
    (Instr.rspRir [1, 40000] (.perElement [false, true])).wellFormed = false ∧
    (Instr.rspWsc 65536 [0, 0]).wellFormed = false ∧ (Instr.rspWmc 0 65536).wellFormed = false ∧
    (Instr.rspWmr (-1) 0).wellFormed = false ∧ (Instr.exc 256 0).wellFormed = false ∧
    (Instr.exc 0 (-1)).wellFormed = false := by decide

theorem test_wellFormed_kinds :
    (Instr.reqWsc 0 (.int 1)).wellFormed = false ∧ (Instr.reqWsc 0 (.bool false)).wellFormed = true ∧
    (Instr.reqWmc 0 [.bool true, .int 2]).wellFormed = false ∧ (Instr.rspRc [.int (-1)]).wellFormed = false ∧
    (Instr.pack [.int 2]).wellFormed = false ∧ (Instr.pack []).wellFormed = true ∧
    (Instr.rspRhr [1, 2] (.perElement [true])).wellFormed = false ∧ (Instr.rspWsr 0 [1]).wellFormed = false ∧
    (Instr.i2b (-1)).wellFormed = false := by decide

theorem test_wellFormed_digit_strings :
    (Instr.b2f []).wellFormed = false ∧ (Instr.b2f ['1', '2']).wellFormed = false ∧
    (Instr.b2f (List.replicate 32 '1')).wellFormed = true ∧ (Instr.b2f ('0' :: List.replicate 32 '1')).wellFormed = true ∧
    (Instr.b2f ('1' :: List.replicate 32 '0')).wellFormed = false := by decide

/-! ### The request encoders: 95_test_vectors.md 2.2 to 2.4 -/

theorem test_reqRc :
    run (.reqRc 0 1) = ok [0x01, 0x00, 0x00, 0x00, 0x01] ∧ run (.reqRc 0 2000) = ok [0x01, 0x00, 0x00, 0x07, 0xD0] ∧
    run (.reqRc 0xFFFF 1) = ok [0x01, 0xFF, 0xFF, 0x00, 0x01] ∧ run (.reqRc 0 0) = fails .invalidQuantity ∧
    run (.reqRc 0 2001) = fails .invalidQuantity ∧ run (.reqRc (-1) 1) = fails .fieldOverflow ∧
    run (.reqRc 65536 1) = fails .fieldOverflow ∧ run (.reqRc 70000 0) = fails .invalidQuantity := by decide

theorem test_reqRdi :
    run (.reqRdi 0x00C4 22) = ok [0x02, 0x00, 0xC4, 0x00, 0x16] ∧ run (.reqRdi 0 2001) = fails .invalidQuantity ∧
    run (.reqRdi 65536 1) = fails .fieldOverflow := by decide

theorem test_reqRhr :
    run (.reqRhr 0x006B 3) = ok [0x03, 0x00, 0x6B, 0x00, 0x03] ∧ run (.reqRhr 0 125) = ok [0x03, 0x00, 0x00, 0x00, 0x7D] ∧
    run (.reqRhr 0 126) = fails .invalidQuantity ∧ run (.reqRhr 65536 1) = fails .fieldOverflow := by decide

theorem test_reqRir :
    run (.reqRir 0x0008 1) = ok [0x04, 0x00, 0x08, 0x00, 0x01] ∧ run (.reqRir 0 0) = fails .invalidQuantity ∧
    run (.reqRir 0 126) = fails .invalidQuantity ∧ run (.reqRir 65536 1) = fails .fieldOverflow := by decide

theorem test_reqWsc :
    run (.reqWsc 0x00AC (.bool true)) = ok [0x05, 0x00, 0xAC, 0xFF, 0x00] ∧
    run (.reqWsc 0x00AC (.int 0xFF00)) = ok [0x05, 0x00, 0xAC, 0xFF, 0x00] ∧
    run (.reqWsc 0x00AC (.bool false)) = ok [0x05, 0x00, 0xAC, 0x00, 0x00] ∧
    run (.reqWsc 0x00AC (.int 0)) = ok [0x05, 0x00, 0xAC, 0x00, 0x00] := by decide

theorem test_reqWsc_errors :
    run (.reqWsc 0x00AC (.int 1)) = fails .illegalValue ∧ run (.reqWsc 0x00AC (.int 5)) = fails .illegalValue ∧
    run (.reqWsc 0x00AC (.int 0x00FF)) = fails .illegalValue ∧ run (.reqWsc 0x00AC (.int (-256))) = fails .illegalValue ∧
    run (.reqWsc 65536 (.bool true)) = fails .fieldOverflow ∧ run (.reqWsc 65536 (.int 5)) = fails .illegalValue := by decide

theorem test_reqWsr :
    run (.reqWsr 1 3 false) = ok [0x06, 0x00, 0x01, 0x00, 0x03] ∧ run (.reqWsr 1 (-1) true) = ok [0x06, 0x00, 0x01, 0xFF, 0xFF] ∧
    run (.reqWsr 1 65535 false) = ok [0x06, 0x00, 0x01, 0xFF, 0xFF] ∧
    run (.reqWsr 1 (-32768) true) = ok [0x06, 0x00, 0x01, 0x80, 0x00] ∧
    run (.reqWsr 1 32767 true) = ok [0x06, 0x00, 0x01, 0x7F, 0xFF] := by decide

theorem test_reqWsr_errors :
    run (.reqWsr 1 32768 true) = fails .fieldOverflow ∧ run (.reqWsr 1 (-1) false) = fails .fieldOverflow ∧
    run (.reqWsr 1 65536 false) = fails .fieldOverflow ∧ run (.reqWsr 65536 70000 false) = fails .fieldOverflow := by decide

theorem test_reqWmc :
    run (.reqWmc 0x13 (ints [1, 0, 1, 1, 0, 0, 1, 1, 1, 0])) = ok [0x0F, 0x00, 0x13, 0x00, 0x0A, 0x02, 0xB3, 0x02] ∧
    runHigh (.reqWmc 0x13 (ints [1, 0, 1, 1, 0, 0, 1, 1, 1, 0])) = ok [0x0F, 0x00, 0x13, 0x00, 0x0A, 0x02, 0xB3, 0x80] ∧
    run (.reqWmc 0 (ints [1])) = ok [0x0F, 0x00, 0x00, 0x00, 0x01, 0x01, 0x01] ∧
    runHigh (.reqWmc 0 (ints [1])) = ok [0x0F, 0x00, 0x00, 0x00, 0x01, 0x01, 0x80] ∧
    run (.reqWmc 0 []) = fails .invalidQuantity ∧ run (.reqWmc 0 (ints [1, 2])) = fails .notABit ∧
    run (.reqWmc 65536 (ints [2])) = fails .fieldOverflow := by decide

theorem test_reqWmc_limit :
    headOf 7 (run (.reqWmc 0 (List.replicate 1968 (.int 1)))) = some (252, [0x0F, 0x00, 0x00, 0x07, 0xB0, 0xF6, 0xFF]) ∧
    run (.reqWmc 0 (List.replicate 1969 (.int 1))) = fails .invalidQuantity := by decide +kernel

theorem test_reqWmr :
    run (.reqWmr 1 [0x000A, 0x0102] false) = ok [0x10, 0x00, 0x01, 0x00, 0x02, 0x04, 0x00, 0x0A, 0x01, 0x02] ∧
    run (.reqWmr 1 [-1, -32768] true) = ok [0x10, 0x00, 0x01, 0x00, 0x02, 0x04, 0xFF, 0xFF, 0x80, 0x00] ∧
    run (.reqWmr 1 [-1] false) = fails .fieldOverflow ∧ run (.reqWmr 1 [] false) = fails .invalidQuantity ∧
    run (.reqWmr 0 [1, 70000, -5] false) = fails .fieldOverflow := by decide

theorem test_reqWmr_limit :
    headOf 7 (run (.reqWmr 0 (List.replicate 123 0) false)) = some (252, [0x10, 0x00, 0x00, 0x00, 0x7B, 0xF6, 0x00]) ∧
    run (.reqWmr 0 (List.replicate 124 0) false) = fails .invalidQuantity := by decide +kernel

/-! ### The bit packer: 95_test_vectors.md 2.5 -/

theorem test_pack_low :
    run (.pack []) = ok [] ∧ run (.pack (ints [1, 0, 1, 1, 0, 0, 0, 1])) = ok [0xB1] ∧
    run (.pack (ints [1, 0, 1, 1, 0, 0, 0, 1, 1])) = ok [0xB1, 0x01] ∧ run (.pack (ints [1, 0, 0])) = ok [0x04] ∧
    run (.pack (ints [0, 0, 0, 0, 0, 0, 0, 1, 1, 1, 1])) = ok [0x01, 0x07] ∧
    run (.pack [.bool true, .int 1, .bool false, .int 0]) = ok [0x0C] ∧
    run (.pack (List.replicate 16 (.int 1))) = ok [0xFF, 0xFF] ∧ run (.pack (ints [1, 2])) = fails .notABit ∧
    run (.pack (ints [-1])) = fails .notABit := by decide

theorem test_pack_high :
    runHigh (.pack (ints [1, 0, 1, 1, 0, 0, 0, 1])) = ok [0xB1] ∧
    runHigh (.pack (ints [1, 0, 1, 1, 0, 0, 0, 1, 1])) = ok [0xB1, 0x80] ∧ runHigh (.pack (ints [1, 0, 0])) = ok [0x80] ∧
    runHigh (.pack (ints [0, 0, 0, 0, 0, 0, 0, 1, 1, 1, 1])) = ok [0x01, 0xE0] ∧
    runHigh (.pack [.bool true, .int 1, .bool false, .int 0]) = ok [0xC0] := by decide

/-! ### The response encoders: 95_test_vectors.md 2.6 and 2.7 -/

theorem test_rspRc :
    run (.rspRc (ints [1, 0, 1, 1, 0, 0, 1, 1, 1, 0])) = ok [0x01, 0x02, 0xB3, 0x02] ∧
    runHigh (.rspRc (ints [1, 0, 1, 1, 0, 0, 1, 1, 1, 0])) = ok [0x01, 0x02, 0xB3, 0x80] ∧
    run (.rspRc []) = ok [0x01, 0x00] ∧ run (.rspRc (ints [0, 3])) = fails .notABit := by decide

theorem test_rspRc_limit :
    headOf 3 (run (.rspRc (List.replicate 2040 (.int 0)))) = some (257, [0x01, 0xFF, 0x00]) ∧
    run (.rspRc (List.replicate 2041 (.int 0))) = fails .fieldOverflow := by decide +kernel

theorem test_rspRdi :
    run (.rspRdi ([.bool true] ++ List.replicate 7 (.bool false))) = ok [0x02, 0x01, 0x80] ∧
    run (.rspRdi (ints [1, 1, 0, 0, 1])) = ok [0x02, 0x01, 0x19] ∧
    runHigh (.rspRdi (ints [1, 1, 0, 0, 1])) = ok [0x02, 0x01, 0xC8] ∧ run (.rspRdi (ints [2])) = fails .notABit := by decide

theorem test_rspRdi_limit :
    headOf 3 (run (.rspRdi (List.replicate 2040 (.int 1)))) = some (257, [0x02, 0xFF, 0xFF]) ∧
    run (.rspRdi (List.replicate 2041 (.int 0))) = fails .fieldOverflow := by decide +kernel

theorem test_rspRhr :
    run (.rspRhr [0x022B, 0, 0x64] (.uniform false)) = ok [0x03, 0x06, 0x02, 0x2B, 0x00, 0x00, 0x00, 0x64] ∧
    run (.rspRhr [-2, 65534] (.perElement [true, false])) = ok [0x03, 0x04, 0xFF, 0xFE, 0xFF, 0xFE] ∧
    run (.rspRhr [-2, 65534] (.perElement [true])) = fails .lengthMismatch ∧
    run (.rspRhr [-2, 65534] (.uniform false)) = fails .fieldOverflow ∧
    run (.rspRhr [] (.uniform false)) = fails .invalidQuantity ∧ run (.rspRhr [] (.perElement [])) = fails .invalidQuantity ∧
    run (.rspRhr [40000] (.uniform true)) = fails .fieldOverflow := by decide

theorem test_rspRhr_limit :
    headOf 3 (run (.rspRhr (List.replicate 125 0) (.uniform false))) = some (252, [0x03, 0xFA, 0x00]) ∧
    run (.rspRhr (List.replicate 126 0) (.uniform false)) = fails .invalidQuantity := by decide +kernel

theorem test_rspRir :
    run (.rspRir [-1] (.uniform true)) = ok [0x04, 0x02, 0xFF, 0xFF] ∧
    run (.rspRir [65535] (.uniform false)) = ok [0x04, 0x02, 0xFF, 0xFF] ∧
    run (.rspRir [] (.uniform true)) = fails .invalidQuantity ∧
    run (.rspRir [0] (.perElement [true, true])) = fails .lengthMismatch ∧
    run (.rspRir [-2, 65534, 0x7FFF] (.uniform false)) = fails .fieldOverflow := by decide

theorem test_rspWsc :
    run (.rspWsc 0x00AC [0xFF, 0x00]) = ok [0x05, 0x00, 0xAC, 0xFF, 0x00] ∧
    run (.rspWsc 0x00AC [0x12, 0x34]) = ok [0x05, 0x00, 0xAC, 0x12, 0x34] ∧
    run (.rspWsc 0x00AC [0xFF]) = fails .shortPayload ∧ run (.rspWsc 65536 []) = fails .fieldOverflow := by decide

theorem test_rspWsr :
    run (.rspWsr 1 [0x00, 0x03, 0x99]) = ok [0x06, 0x00, 0x01, 0x00, 0x03] ∧ run (.rspWsr 1 []) = fails .shortPayload ∧
    run (.rspWsr (-1) [0x00, 0x03]) = fails .fieldOverflow := by decide

theorem test_rspWmc :
    run (.rspWmc 0x13 10) = ok [0x0F, 0x00, 0x13, 0x00, 0x0A] ∧ run (.rspWmc 0x13 0) = ok [0x0F, 0x00, 0x13, 0x00, 0x00] ∧
    run (.rspWmc 0x13 65536) = fails .fieldOverflow := by decide

theorem test_rspWmr :
    run (.rspWmr 1 2) = ok [0x10, 0x00, 0x01, 0x00, 0x02] ∧ run (.rspWmr 1 65535) = ok [0x10, 0x00, 0x01, 0xFF, 0xFF] ∧
    run (.rspWmr 65536 0) = fails .fieldOverflow := by decide

/-! ### The validator: 95_test_vectors.md 2.8 -/

/-- The verdicts of 2.8 that are true, the last one under PREFIX. -/
theorem test_val_true :
    (∀ i ∈ [Instr.val [0x00, 0x01, 0x00, 0x03] 6 1 (some 3) none false, .val [0x00, 0xAC, 0xFF, 0x00] 5 0xAC (some 0xFF00) none false,
        .val [0x00, 0xAC, 0xFF, 0x00] 5 0xAC (some (-256)) none true, .val [0x00, 0x01, 0xFF, 0xFF] 6 1 (some (-1)) none true,
        .val [0x00, 0x13, 0x00, 0x0A] 15 0x13 none (some 10) false, .val [0x00, 0x13, 0x00, 0x0A] 16 0x13 none (some 10) false],
      run i = some (.verdict true)) ∧
    runPrefix (.val [0x00, 0x01, 0x00, 0x03, 0x00] 6 1 (some 3) none false) = some (.verdict true) := by decide

/-- The verdicts of 2.8 that are false, the last one under PREFIX. -/
theorem test_val_false :
    (∀ i ∈ [Instr.val [0x00, 0x01, 0x00, 0x03] 6 1 (some 4) none false, .val [0x00, 0x01, 0x00, 0x03] 6 2 (some 3) none false,
        .val [0x00, 0x01, 0x00, 0x03] 6 1 none (some 3) false, .val [0x00, 0x01, 0x00, 0x03] 3 1 (some 3) (some 3) false,
        .val [0x00, 0x01, 0x00, 0x03] 0x86 1 (some 3) none false, .val [0x00, 0x01, 0x00, 0x03] 6 65537 (some 3) none false,
        .val [0x00, 0xAC, 0xFF, 0x00] 5 0xAC (some 0xFF00) none true, .val [0x00, 0x01, 0xFF, 0xFF] 6 1 (some (-1)) none false,
        .val [0x00, 0x13, 0x00, 0x0A] 15 0x13 (some 10) none false, .val [0x00, 0x01, 0x00] 6 1 (some 3) none false,
        .val [0x00, 0x01, 0x00, 0x03, 0x00] 6 1 (some 3) none false, .val [] 6 0 (some 0) none false],
      run i = some (.verdict false)) ∧
    runPrefix (.val [0x00, 0x01, 0x00] 6 1 (some 3) none false) = some (.verdict false) := by decide

/-! ### The exception encoder: 95_test_vectors.md 2.9 -/

theorem test_exc :
    run (.exc 3 2) = ok [0x83, 0x02] ∧ run (.exc 1 3) = ok [0x81, 0x03] ∧ run (.exc 0x10 4) = ok [0x90, 0x04] ∧
    run (.exc 0x83 1) = ok [0x83, 0x01] ∧ run (.exc 0 0) = ok [0x80, 0x00] ∧ run (.exc 0xFF 0xFF) = ok [0xFF, 0xFF] ∧
    run (.exc 7 1) = ok [0x87, 0x01] := by decide

theorem test_exc_errors :
    run (.exc 256 1) = fails .fieldOverflow ∧ run (.exc 1 256) = fails .fieldOverflow ∧
    run (.exc (-1) 1) = fails .fieldOverflow := by decide

/-! ### The numeric codec: 95_test_vectors.md 2.10 -/

theorem test_f2b :
    run (.f2b 0x3FC00000) = some (.digits (text [0, 0, 1, 1, 1, 1, 1, 1, 1, 1] ++ List.replicate 22 '0')) ∧
    run (.f2b 0x80000000) = some (.digits ('1' :: List.replicate 31 '0')) ∧
    run (.f2b 0x00000001) = some (.digits (List.replicate 31 '0' ++ ['1'])) ∧
    run (.f2b 0x7FC00001) = some (.digits (text [0, 1, 1, 1, 1, 1, 1, 1, 1, 1] ++ List.replicate 21 '0' ++ ['1'])) := by decide

theorem test_b2f :
    run (.b2f (text [0, 0, 1, 1, 1, 1, 1, 1, 1, 1] ++ List.replicate 22 '0')) = some (.bits32 0x3FC00000) ∧
    run (.b2f ['1']) = some (.bits32 0x00000001) ∧
    run (.b2f ('0' :: List.replicate 32 '1')) = some (.bits32 0xFFFFFFFF) := by decide

theorem test_b2f_errors :
    run (.b2f ('1' :: List.replicate 32 '0')) = fails .badDigitString ∧ run (.b2f []) = fails .badDigitString ∧
    run (.b2f ['1', '0', '2']) = fails .badDigitString ∧ run (.b2f ['0', 'b', '1']) = fails .badDigitString ∧
    run (.b2f [' ', '1']) = fails .badDigitString ∧ run (.b2f ['-', '1']) = fails .badDigitString := by decide

theorem test_i2b :
    run (.i2b 0) = some (.digits ['0']) ∧ run (.i2b 1) = some (.digits ['1']) ∧ run (.i2b 2) = some (.digits (text [1, 0])) ∧
    run (.i2b 5) = some (.digits (text [1, 0, 1])) ∧ run (.i2b 255) = some (.digits (List.replicate 8 '1')) ∧
    run (.i2b 256) = some (.digits ('1' :: List.replicate 8 '0')) ∧
    run (.i2b (-1)) = fails .negativeInput := by decide

theorem test_i2b_wide :
    run (.i2b 1099511627776) = some (.digits ('1' :: List.replicate 40 '0')) ∧
    run (.i2b 0x3FC00000) = some (.digits (List.replicate 8 '1' ++ List.replicate 22 '0')) := by decide +kernel

/-- 45_numeric_codec.md R250: the codes at a byte-wide port. -/
theorem test_digit_port : digitPortBytes ['1', '0', '1'] = [0x31, 0x30, 0x31] := by decide

/-! ### Tables and the reading of a PDU -/

/-- 60_exceptions.md R300, column "code". -/
theorem test_error_numbers :
    [ErrorCode.invalidQuantity, .illegalValue, .fieldOverflow, .notABit, .shortPayload, .lengthMismatch, .badDigitString,
      .negativeInput, .undefinedCommand].map errorNumber = [1, 2, 3, 4, 5, 6, 7, 8, 9] := by decide

/-- 10_state.md R26: the condition outputs are the tag, the code and the verdict. -/
theorem test_conditions :
    isOk (.bytes []) = true ∧ isOk (.err .notABit) = false ∧ errorOf (.err .notABit) = some .notABit ∧
    verdictOf (.verdict false) = some false ∧ verdictOf (.bytes []) = none := by decide

/-- 30_encoding.md R73 on the PDUs of 95_test_vectors.md. -/
theorem test_receiver :
    pduIsException [0x83, 0x02] = true ∧ pduLength .response [0x83, 0x02] = some 2 ∧
    pduLength .request [0x01, 0x00, 0x00, 0x00, 0x0A] = some 5 ∧
    pduLength .request [0x0F, 0x00, 0x13, 0x00, 0x0A, 0x02, 0xB3, 0x02] = some 8 ∧
    pduLength .response [0x03, 0x04, 0xFF, 0xFE, 0xFF, 0xFE] = some 6 ∧
    pduLength .response [0x0F, 0x00, 0x13, 0x00, 0x0A] = some 5 ∧ pduLength .request [0x07] = none := by decide

/-! ### The notation and the host script: examples of 30_encoding.md R74 and lines of 95_test_vectors.md section 3 -/

theorem test_assemble_integers :
    assemble "REQ.RC 0x0000, 10".toList = some (.reqRc 0 10) ∧ assemble "REQ.WSC 0x00AC, true".toList = some (.reqWsc 0xAC (.bool true)) ∧
    assemble "REQ.WSR 0x0001, -1, s".toList = some (.reqWsr 1 (-1) true) ∧ assemble "EXC 3, 2".toList = some (.exc 3 2) ∧
    assemble "F2B 0x3FC00000".toList = some (.f2b 0x3FC00000) ∧ assemble "I2B 5".toList = some (.i2b 5) ∧
    assemble "B2F \"1\"".toList = some (.b2f ['1']) := by decide +kernel

theorem test_assemble_lists :
    assemble "REQ.WMC 0x0013, [1,0,true]".toList = some (.reqWmc 0x13 [.int 1, .int 0, .bool true]) ∧
    assemble "RSP.RHR [0x022B, 0, 0x64], u".toList = some (.rspRhr [0x022B, 0, 0x64] (.uniform false)) ∧
    assemble "RSP.RHR [-2, 65534, 0x7FFF], per(s, u, s)".toList =
      some (.rspRhr [-2, 65534, 0x7FFF] (.perElement [true, false, true])) ∧
    assemble "VAL b[0x00,0x01,0x00,0x03], 6, 1, 3, none, u".toList =
      some (.val [0x00, 0x01, 0x00, 0x03] 6 1 (some 3) none false) ∧
    assemble "RSP.RHR [], per()".toList = some (.rspRhr [] (.perElement [])) ∧ assemble "PACK []".toList = some (.pack []) := by
  decide +kernel

/-- No such mnemonic, an operand too few, an operand of another kind, a byte above 255. -/
theorem test_assemble_refuses :
    assemble "REQ.XX 0, 1".toList = none ∧ assemble "REQ.RC 0".toList = none ∧ assemble "REQ.RC s, 1".toList = none ∧
    assemble "RSP.WSC 1, b[256, 0]".toList = none := by decide +kernel

theorem test_lines :
    assembleLine "r0 = REQ.WSR 0x0001, 3, u".toList =
      some (.issue 0 .reqWsr [.lit (.int 1), .lit (.int 3), .lit (.flag false)]) ∧
    assembleLine "r1 = r0[3:5]".toList = some (.slice 1 0 3 5) ∧
    assembleLine "r2 = RSP.WSR 0x0001, r1".toList = some (.issue 2 .rspWsr [.lit (.int 1), .var 1]) ∧
    assembleLine "if r4 goto L8".toList = some (.ifTrue 4 8) ∧ assembleLine "if err(r6) goto L9".toList = some (.ifErr 6 9) ∧
    assembleLine "goto L10".toList = some (.goto 10) ∧ assembleLine "halt".toList = some .halt := by decide +kernel

/-- The host of program P1 of 95_test_vectors.md after its first line, before line `n`. -/
def hostAt (n : Nat) (vars : List (Nat × Result)) : ScriptHost :=
  { ScriptHost.start 0 State.reset with hpc := n, vars := vars }

/-- Lines L0, L1 and L2 of program P1, each in one step. -/
theorem test_script_p1 :
    lookupVar 0 (scriptStep [.issue 0 .reqWsr [.lit (.int 1), .lit (.int 3), .lit (.flag false)]] (hostAt 0 [])).vars =
      ok [0x06, 0x00, 0x01, 0x00, 0x03] ∧
    scriptStep [.halt, .slice 1 0 3 5] (hostAt 1 [(0, .bytes [0x06, 0x00, 0x01, 0x00, 0x03])]) =
      hostAt 2 [(1, .bytes [0x00, 0x03]), (0, .bytes [0x06, 0x00, 0x01, 0x00, 0x03])] ∧
    lookupVar 2 (scriptStep [.issue 2 .rspWsr [.lit (.int 1), .var 1]] (hostAt 0 [(1, .bytes [0x00, 0x03])])).vars =
      ok [0x06, 0x00, 0x01, 0x00, 0x03] := by decide

/-- A slice with i > j, to which R75 gives no meaning, stops the script (log entry 11). -/
theorem test_script_slice_backwards :
    (scriptStep [.slice 1 0 2 1] (hostAt 0 [(0, .bytes [1, 2, 3])])).status = .stopped := by decide

/-- Branches taken and not taken (R75), and an `Err` result as an operand. -/
theorem test_script_branches :
    (scriptStep [.ifTrue 4 8] (hostAt 0 [(4, .verdict true)])).hpc = 8 ∧
    (scriptStep [.ifTrue 4 8] (hostAt 0 [(4, .verdict false)])).hpc = 1 ∧
    (scriptStep [.ifErr 6 9] (hostAt 0 [(6, .err .badDigitString)])).hpc = 9 ∧
    (scriptStep [.ifErr 6 9] (hostAt 0 [(6, .bytes [])])).hpc = 1 ∧
    (scriptStep [.issue 5 .b2f [.var 6]] (hostAt 0 [(6, .err .badDigitString)])).status = .stopped := by decide

/-! ### Witnesses: operands that meet the hypotheses of each statement, one theorem for each clause, at the ends of the ranges -/

/-- `s` with result `r` is what `i` answers. -/
abbrev Answers (i : Instr) (s : State) (r : Result) : Prop := exec i s = .next (answered s r)

/-- A transaction of host 3. -/
def issued (cmd : Word16) (o : OperandRecord) : Transaction := { host := 3, cmd := cmd, operands := o }

theorem witness_assigned_words :
    (State.reset.present (issued 0x0101 OperandRecord.zero)).inbox = [.issue (issued 0x0101 OperandRecord.zero)] ∧
    (0x0101 : Word16) ∈ commandTable.map Prod.fst ∧ (0x0210 : Word16) ∈ commandTable.map Prod.fst ∧
    (0x0300 : Word16) ∈ commandTable.map Prod.fst ∧ (0x0602 : Word16) ∈ commandTable.map Prod.fst := by
  refine ⟨rfl, ?_⟩
  decide

theorem witness_unassigned_words :
    (∀ row ∈ commandTable, (0x0107 : Word16) ≠ row.1) ∧ (∀ row ∈ commandTable, (0xFFFF : Word16) ≠ row.1) := by decide

theorem witness_wire_function_code :
    ((0x0101 : Word16).extractLsb' 8 8 = 0x01#8 ∧ (0x0210 : Word16).extractLsb' 8 8 = 0x02#8) ∧
    Answers (.reqRc 0 1) State.reset (.bytes [0x01, 0x00, 0x00, 0x00, 0x01]) ∧
    Answers (.rspWmr 0 0) State.reset (.bytes [0x10, 0x00, 0x00, 0x00, 0x00]) := ⟨by decide, rfl, rfl⟩

theorem witness_encode_lanes :
    decode 0x0400 { OperandRecord.zero with fc := 3, exceptionCode := 2, number := 9 } = .ok (.exc 3 2) ∧
    Lane.fc ∈ operandLanes .exc ∧ Lane.number ∉ operandLanes .exc := ⟨rfl, by decide⟩

/-- Two records that differ only in a lane EXC does not read, and two that differ in one it reads. -/
theorem witness_operand_lanes :
    (∀ lane ∈ operandLanes .exc, sameLane OperandRecord.zero { OperandRecord.zero with number := 9 } lane) ∧
    ¬ sameLane OperandRecord.zero { OperandRecord.zero with fc := 9 } .fc := by
  simp [operandLanes, sameLane, OperandRecord.zero]

theorem witness_step_runs_decoded :
    (State.reset.present (issued 0x0602 { OperandRecord.zero with number := 5 })).inbox =
      [.issue (issued 0x0602 { OperandRecord.zero with number := 5 })] ∧
    decode (issued 0x0602 { OperandRecord.zero with number := 5 }).cmd { OperandRecord.zero with number := 5 } =
      .ok (.i2b 5) := ⟨rfl, rfl⟩

theorem witness_reset_stimuli :
    ({ State.reset with inbox := [.reset, .reset] } : State).inbox = .reset :: [.reset] ∧
    ({ State.reset with inbox := [.resetDuring (issued 0x0101 OperandRecord.zero), .issue (issued 0x0101 OperandRecord.zero)] } :
      State).inbox = .resetDuring (issued 0x0101 OperandRecord.zero) :: .issue (issued 0x0101 OperandRecord.zero) :: [] :=
  ⟨rfl, rfl⟩

theorem witness_address_fits : Fits16 0 ∧ Fits16 65535 := by unfold Fits16; decide

theorem witness_address_does_not_fit : ¬ Fits16 (-1) ∧ ¬ Fits16 65536 := by unfold Fits16; decide

theorem witness_byte_fits : Fits8 0 ∧ Fits8 255 := by unfold Fits8; decide

theorem witness_byte_does_not_fit : ¬ Fits8 (-1) ∧ ¬ Fits8 256 := by unfold Fits8; decide

theorem witness_register_fits :
    RegFits true (-32768) ∧ RegFits true 32767 ∧ RegFits false 0 ∧ RegFits false 65535 := by unfold RegFits; decide

theorem witness_register_does_not_fit :
    ¬ RegFits true (-32769) ∧ ¬ RegFits true 32768 ∧ ¬ RegFits false (-1) ∧ ¬ RegFits false 65536 := by
  unfold RegFits; decide

theorem witness_bits : IsBit (.bool true) ∧ IsBit (.bool false) ∧ IsBit (.int 0) ∧ IsBit (.int 1) := by
  unfold IsBit; decide

theorem witness_not_bits : ¬ IsBit (.int (-1)) ∧ ¬ IsBit (.int 2) := by simp [IsBit]

/-- The quantities of R101 to R104: the ends of the ranges, and the values beside them. -/
theorem witness_read_quantities :
    ((1 : Int) ≤ 1 ∧ (1 : Int) ≤ 2000 ∧ (2000 : Int) ≤ 2000 ∧ (1 : Int) ≤ 125 ∧ (125 : Int) ≤ 125) ∧
    ((0 : Int) < 1 ∧ (2000 : Int) < 2001 ∧ (125 : Int) < 126) := by decide

/-- REQ.RC at both ends, the address at both ends; every clause of R101 is met. -/
theorem witness_reqRc :
    Answers (.reqRc 65535 2000) State.reset (.bytes [0x01, 0xFF, 0xFF, 0x07, 0xD0]) ∧
    Answers (.reqRc (-1) 2001) State.reset (.err .invalidQuantity) ∧
    Answers (.reqRc 65536 2000) State.reset (.err .fieldOverflow) := ⟨rfl, rfl, rfl⟩

theorem witness_reqWsc :
    (Fits16 65535 ∧ CoilIn.int 0xFF00 = .int 0xFF00) ∧ (Fits16 0 ∧ CoilIn.int 0 = .int 0x0000) ∧
    ((0xFEFF : Int) ≠ 0 ∧ (0xFEFF : Int) ≠ 0xFF00 ∧ (1 : Int) ≠ 0 ∧ (1 : Int) ≠ 0xFF00) ∧
    (¬ Fits16 65536 ∧ ∃ b, CoilIn.bool true = .bool b) :=
  ⟨⟨witness_address_fits.2, rfl⟩, ⟨witness_address_fits.1, rfl⟩, by decide, witness_address_does_not_fit.2, true, rfl⟩

theorem witness_reqWsr :
    Answers (.reqWsr 65535 (-32768) true) State.reset (.bytes [0x06, 0xFF, 0xFF, 0x80, 0x00]) ∧
    Answers (.reqWsr 65536 0 true) State.reset (.err .fieldOverflow) ∧
    Answers (.reqWsr 0 (-32769) true) State.reset (.err .fieldOverflow) := ⟨rfl, rfl, rfl⟩

/-- List lengths of R108 at both ends and beside them; a list of bits and one that holds another element. -/
theorem witness_reqWmc :
    ((List.replicate 1968 (BitIn.int 1)).length = 1968 ∧ ∀ e ∈ List.replicate 1968 (BitIn.int 1), IsBit e) ∧
    1968 < (List.replicate 1969 (BitIn.int 1)).length ∧ ([] : List BitIn).length < 1 ∧
    ∃ e ∈ [BitIn.int 1, .int 2], ¬ IsBit e :=
  ⟨⟨List.length_replicate .., fun e h => by rw [List.eq_of_mem_replicate h]; exact witness_bits.2.2.2⟩, by rw [List.length_replicate]; decide, by decide,
    .int 2, by simp, witness_not_bits.2⟩

theorem witness_reqWmr :
    ((List.replicate 123 (-1 : Int)).length = 123 ∧ ∀ v ∈ List.replicate 123 (-1 : Int), RegFits true v) ∧
    123 < (List.replicate 124 (-1 : Int)).length ∧ ([] : List Int).length < 1 ∧ ∃ v ∈ [(0 : Int), -1], ¬ RegFits false v :=
  ⟨⟨List.length_replicate .., fun v h => by rw [List.eq_of_mem_replicate h]; unfold RegFits; decide⟩, by simp, by simp,
    -1, by simp, witness_register_does_not_fit.2.2.1⟩

theorem witness_quantity_field :
    requestedQuantity (.reqRc 0 2000) = some (2000, 2000) ∧ requestedQuantity (.reqWmr 0 [7] false) = some (1, 123) ∧
    Answers (.reqRc 0 2000) State.reset (.bytes [0x01, 0x00, 0x00, 0x07, 0xD0]) ∧
    Answers (.reqWmr 0 [7] false) State.reset (.bytes [0x10, 0x00, 0x00, 0x00, 0x01, 0x02, 0x00, 0x07]) :=
  ⟨rfl, rfl, rfl, rfl⟩

theorem witness_read_bits_response :
    ((List.replicate 2040 (BitIn.int 0)).length ≤ 2040 ∧ ∀ e ∈ List.replicate 2040 (BitIn.int 0), IsBit e) ∧
    2040 < (List.replicate 2041 (BitIn.int 0)).length ∧ [BitIn.int 0, .int 3].length ≤ 2040 ∧
    ∃ e ∈ [BitIn.int 0, .int 3], ¬ IsBit e :=
  ⟨⟨by rw [List.length_replicate], fun e h => by rw [List.eq_of_mem_replicate h]; exact witness_bits.2.2.1⟩,
    by rw [List.length_replicate]; decide, by decide, .int 3, by simp,
    by simp [IsBit]⟩

theorem witness_read_registers_response :
    (([-32768, 65535] : List Int).length ≤ 125 ∧ Covers 2 (.perElement [true, false]) ∧
      RegFits (flagAt 0 (.perElement [true, false])) (-32768) ∧ RegFits (flagAt 1 (.perElement [true, false])) 65535) ∧
    (125 < (List.replicate 126 (0 : Int)).length ∧ (List.replicate 125 (0 : Int)).length = 125 ∧ ([] : List Int).length < 1) ∧
    (¬ Covers 2 (.perElement [true]) ∧ ¬ Covers 2 (.perElement [true, true, true])) ∧
    (Covers 1 (.uniform true) ∧ ¬ RegFits (flagAt 0 (.uniform true)) 32768) := by
  simp [Covers, RegFits, flagAt]

theorem witness_single_write_response :
    (Fits16 65535 ∧ ([1, 2] : List Byte) = 1 :: 2 :: []) ∧ ¬ Fits16 65536 ∧ (Fits16 0 ∧ ([1] : List Byte).length < 2) :=
  ⟨⟨witness_address_fits.2, rfl⟩, witness_address_does_not_fit.2, witness_address_fits.1, by decide⟩

theorem witness_multiple_write_response :
    Answers (.rspWmc 65535 65535) State.reset (.bytes [0x0F, 0xFF, 0xFF, 0xFF, 0xFF]) ∧
    Answers (.rspWmc 0 65536) State.reset (.err .fieldOverflow) ∧
    Answers (.rspWmr (-1) 0) State.reset (.err .fieldOverflow) := ⟨rfl, rfl, rfl⟩

/-- A list of 9 bits packs into a full group and a short one, under both builds; PACK takes any length. -/
theorem witness_pack :
    (∀ e ∈ List.replicate 9 (BitIn.bool true), IsBit e) ∧
    Answers (.pack (List.replicate 9 (.bool true))) State.reset (.bytes [0xFF, 0x01]) ∧
    Answers (.pack (List.replicate 9 (.bool true))) highBuild (.bytes [0xFF, 0x80]) ∧
    Answers (.pack []) State.reset (.bytes []) ∧ Answers (.pack [.int 2]) State.reset (.err .notABit) :=
  ⟨fun e h => by rw [List.eq_of_mem_replicate h]; exact witness_bits.1, rfl, rfl, rfl, rfl⟩

/-- 41_bit_packer.md R151: 01000 under LOW and 00001 under HIGH are the byte 08, so a short group needs the alignment; 1 and 01
under LOW are the byte 01, so it needs its length. -/
theorem witness_short_groups :
    run (.pack (ints [0, 1, 0, 0, 0])) = ok [0x08] ∧ runHigh (.pack (ints [0, 0, 0, 0, 1])) = ok [0x08] ∧
    (ints [0, 1, 0, 0, 0]).map bitOf ≠ (ints [0, 0, 0, 0, 1]).map bitOf ∧
    run (.pack (ints [1])) = ok [0x01] ∧ run (.pack (ints [0, 1])) = ok [0x01] := by decide

/-- Bit positions of 9 elements: the ends of the full group and the short one, and a position no element fills. -/
theorem witness_bit_positions :
    bitPosition .low 9 0 = 7 ∧ bitPosition .low 9 7 = 0 ∧ bitPosition .low 9 8 = 0 ∧ bitPosition .high 9 8 = 7 ∧
    ∀ i, i < 9 → i / 8 = 1 → bitPosition .low 9 i ≠ 7 := by decide

theorem witness_builds :
    State.reset.build.packShortAlign = .low ∧ highBuild.build.packShortAlign = .high ∧
    State.reset.build.valLenPolicy = .exactLength ∧ prefixBuild.build.valLenPolicy = .prefixLength := by decide

/-- The payload of five bytes is what the two policies differ on. -/
theorem witness_validator_policies :
    run (.val [0, 1, 0, 3, 0] 6 1 (some 3) none false) = some (.verdict false) ∧
    runPrefix (.val [0, 1, 0, 3, 0] 6 1 (some 3) none false) = some (.verdict true) := by decide

theorem witness_validator_agreement :
    (Fits16 65535 ∧ RegFits true (-32768)) ∧ (Fits16 0 ∧ RegFits false 65535) :=
  ⟨⟨witness_address_fits.2, witness_register_fits.1⟩, witness_address_fits.1, witness_register_fits.2.2.2⟩

theorem witness_error_bias : fcReadCoils ∈ functionCodes ∧ fcWriteMultipleRegisters ∈ functionCodes := by decide

/-- Digit strings of each clause of R254: the greatest value, no character, a character that is no digit, 2^32. -/
theorem witness_digit_strings :
    ((List.replicate 32 '1') ≠ [] ∧ (∀ c ∈ List.replicate 32 '1', IsDigit c) ∧ binaryValue (List.replicate 32 '1') < 2 ^ 32) ∧
    (¬ IsDigit '2' ∧ ¬ IsDigit ' ') ∧ 2 ^ 32 ≤ binaryValue ('1' :: List.replicate 32 '0') := by
  refine ⟨⟨by decide, fun c h => by rw [List.eq_of_mem_replicate h]; exact .inr rfl, by decide⟩, by simp [IsDigit], by decide⟩

theorem witness_numbers : ((-1 : Int) < 0 ∧ (0 : Int) < 1) ∧ ((1 : Bits32) ≠ 0 ∧ (0xFFFFFFFF : Bits32) ≠ 0) := by decide

/-- Every error of the table of R300 that an operation of that row can return stands in `raises`; each is returned in the tests
above. -/
theorem witness_raises :
    ErrorCode.fieldOverflow ∈ raises .reqRc ∧ ErrorCode.notABit ∈ raises .pack ∧ ErrorCode.badDigitString ∈ raises .b2f ∧
    ErrorCode.negativeInput ∈ raises .i2b ∧ raises .val = [] ∧ raises .f2b = [] := by decide

/-- An instruction and a step that answer a next state, and two states of one build that differ elsewhere. -/
theorem witness_next_states :
    (∃ s', exec (.i2b 5) State.reset = .next s') ∧ (∃ s', step (State.reset.withFetchWord 16 0x0602) = .next s') ∧
    State.reset.build = ({ State.reset with issuer := 9 } : State).build ∧
    State.reset ≠ { State.reset with issuer := 9 } := ⟨⟨_, rfl⟩, ⟨_, rfl⟩, rfl, by decide⟩

/-- One command word and record, issued by two hosts. -/
theorem witness_two_issuers :
    (issued 0x0602 OperandRecord.zero).cmd = ({ issued 0x0602 OperandRecord.zero with host := 8 } : Transaction).cmd ∧
    (issued 0x0602 OperandRecord.zero).operands = ({ issued 0x0602 OperandRecord.zero with host := 8 } : Transaction).operands ∧
    issued 0x0602 OperandRecord.zero ≠ { issued 0x0602 OperandRecord.zero with host := 8 } := by decide

theorem witness_build_free :
    BuildFree (.pack (List.replicate 8 (.int 1))) ∧ BuildFree (.reqWmc 0 (List.replicate 8 (.int 1))) ∧
    BuildFree (.val [0, 1, 0, 3] 6 1 (some 3) none false) ∧ BuildFree (.i2b 5) ∧
    ¬ BuildFree (.rspRc [.int 1]) ∧ ¬ BuildFree (.val [0, 1, 0, 3, 0] 6 1 (some 3) none false) := by
  simp [BuildFree]

/-- Two hosts, a reset between their transactions: a state with stimuli to come and results already returned. -/
def busy : State :=
  { State.reset with
    inbox := [.issue (issued 0x0602 { OperandRecord.zero with number := 2 }), .reset, .issue { issued 0x0300 OperandRecord.zero with host := 4 }]
    outbox := [{ host := 4, result := .digits ['1'] }] }

theorem witness_legal_and_history :
    busy.legal = true ∧ (∃ s', step busy = .next s') ∧
    busy.history = [{ host := 4, result := .digits ['1'] }, { host := 3, result := .digits ['1', '0'] },
      { host := 4, result := .verdict false }] := ⟨rfl, ⟨_, rfl⟩, by decide⟩

theorem witness_pdu_lengths :
    pduFormat (Instr.reqWmc 0 [.int 1]).op = some .wmc ∧
    Answers (.reqWmc 0 [.int 1]) State.reset (.bytes [0x0F, 0x00, 0x00, 0x00, 0x01, 0x01, 0x01]) ∧
    formatLength (elementCount (.reqWmc 0 [.int 1])) .wmc = 7 := ⟨rfl, rfl, rfl⟩

theorem witness_directions :
    IsRequest (Instr.reqWmr 0 [] true).op ∧ IsReply (Instr.rspRc []).op ∧ IsReply (Instr.exc 3 2).op ∧
    Answers (.exc 3 2) State.reset (.bytes [0x83, 0x02]) := ⟨rfl, .inl rfl, .inr rfl, rfl⟩

theorem witness_byte_counts : 1 ≤ 1 ∧ byteCountCoils 1 = 1 ∧ byteCountCoils 8 = 1 ∧ byteCountCoils 9 = 2 := by decide

/-- Both operands bad: the source's own check comes first. -/
theorem witness_source_errors :
    sourceError (.reqRc 70000 0) = some .invalidQuantity ∧ sourceError (.reqWsc 65536 (.int 5)) = some .illegalValue ∧
    sourceError (.rspRhr [] (.perElement [true])) = some .invalidQuantity := by decide

/-- A running script whose first line is each form in turn, with the variables it needs. -/
theorem witness_script_lines :
    (hostAt 0 []).status = .running ∧
    ([ScriptLine.goto 3, .halt] : List ScriptLine)[(hostAt 0 []).hpc]? = some (.goto 3) ∧
    ([ScriptLine.halt] : List ScriptLine)[(hostAt 0 []).hpc]? = some .halt ∧
    lookupVar 4 (hostAt 0 [(4, .verdict true)]).vars = some (.verdict true) ∧
    (lookupVar 0 (hostAt 0 [(0, .bytes [1, 2])]).vars = some (.bytes [1, 2]) ∧ 0 ≤ 2 ∧ 2 ≤ ([1, 2] : List Byte).length) := by
  decide

theorem witness_script_operands :
    (argValues [(1, .bytes [0, 3])] [.lit (.int 1), .var 1] = some [.int 1, .bytes [0, 3]] ∧
      assembleRecord .rspWsr [.int 1, .bytes [0, 3]] = some { OperandRecord.zero with address := 1, echo := [0, 3] }) ∧
    (Arg.var 6 ∈ [Arg.var 6] ∧ lookupVar 6 [(6, .err .badDigitString)] = some (.err .badDigitString)) := by decide

/-- A step that serves no transaction, for the statement that every step answers a next state. -/
theorem witness_idle_and_serving : isNext (step State.reset) = true ∧ isNext (step busy) = true := by decide

end Sys2Proof.Tests
end

section
/-! SUPPORT. The answer of an instruction as a function of the build and the instruction alone: `exec` returns it and does nothing
else (10_state.md R24, R32). Every statement about a result goes through `exec_eq_answered`. -/

namespace Sys2Proof.Machine

open Sys2Proof.Stated

/-- The result the outcome of a pseudocode ends its transaction with (00_scope.md R16). -/
def toResult {α : Type} (mk : α → Result) : Except ErrorCode α → Result
  | .ok v => mk v
  | .error e => .err e

@[simp] theorem toResult_ok {α : Type} (mk : α → Result) (v : α) : toResult mk (.ok v) = mk v := rfl
@[simp] theorem toResult_error {α : Type} (mk : α → Result) (e : ErrorCode) : toResult mk (.error e) = .err e := rfl

/-- The answer of an instruction under a build. -/
def answerOf (build : Config) : Instr → Result
  | .reqRc a q => toResult .bytes (readRequest fcReadCoils maxReadBits a q)
  | .reqRdi a q => toResult .bytes (readRequest fcReadDiscreteInputs maxReadBits a q)
  | .reqRhr a q => toResult .bytes (readRequest fcReadHoldingRegisters maxReadRegs a q)
  | .reqRir a q => toResult .bytes (readRequest fcReadInputRegisters maxReadRegs a q)
  | .reqWsc a c => toResult .bytes (writeCoilRequest a c)
  | .reqWsr a v signed => toResult .bytes (writeRegisterRequest a v signed)
  | .reqWmc a vs => toResult .bytes (writeCoilsRequest build.packShortAlign a vs)
  | .reqWmr a vs signed => toResult .bytes (writeRegistersRequest a vs signed)
  | .rspRc vs => toResult .bytes (readBitsResponse fcReadCoils build.packShortAlign vs)
  | .rspRdi vs => toResult .bytes (readBitsResponse fcReadDiscreteInputs build.packShortAlign vs)
  | .rspRhr vs sg => toResult .bytes (readRegsResponse fcReadHoldingRegisters vs sg)
  | .rspRir vs sg => toResult .bytes (readRegsResponse fcReadInputRegisters vs sg)
  | .rspWsc a echo => toResult .bytes (echoValueResponse fcWriteSingleCoil a echo)
  | .rspWsr a echo => toResult .bytes (echoValueResponse fcWriteSingleRegister a echo)
  | .rspWmc a q => toResult .bytes (echoQuantityResponse fcWriteMultipleCoils a q)
  | .rspWmr a q => toResult .bytes (echoQuantityResponse fcWriteMultipleRegisters a q)
  | .val data fc a ev eq signed => .verdict (validate build.valLenPolicy data fc a ev eq signed)
  | .exc fc code => toResult .bytes (exceptionPdu fc code)
  | .pack vs => toResult .bytes (pack build.packShortAlign vs)
  | .f2b x => .digits (digitsOf 32 x.toNat)
  | .b2f cs => toResult .bits32 (parseBits32 cs)
  | .i2b n => toResult .digits (renderInt n)

theorem finish_eq_answered {α : Type} (mk : α → Result) (r : Except ErrorCode α) (s : State) :
    finish mk r s = .next (answered s (toResult mk r)) := by
  cases r <;> rfl

theorem exec_eq_answered (i : Instr) (s : State) : exec i s = .next (answered s (answerOf s.build i)) := by
  cases i
  case val | f2b => rfl
  all_goals exact finish_eq_answered _ _ _

end Sys2Proof.Machine
end

section
/-! SUPPORT. The outcome of each pseudocode, once: its checks in their order, each in the terms of Sys2Proof/WellFormed.lean, and the
bytes where all of them hold. -/

namespace Sys2Proof.Machine

theorem require_inRange (lo hi v : Int) (e : ErrorCode) :
    require (decide (lo ≤ v ∧ v ≤ hi)) e = if inRange lo hi v then .ok () else .error e := rfl

theorem inRange_iff {lo hi v : Int} : inRange lo hi v = true ↔ lo ≤ v ∧ v ≤ hi := decide_eq_true_iff

theorem fitsU16_iff {v : Int} : fitsU16 v = true ↔ 0 ≤ v ∧ v ≤ 65535 := decide_eq_true_iff

theorem fitsU8_iff {v : Int} : fitsU8 v = true ↔ 0 ≤ v ∧ v ≤ 255 := decide_eq_true_iff

theorem fitsU16_of_inRange {limit v : Int} (h : inRange 1 limit v = true) (hlimit : limit ≤ 65535) :
    fitsU16 v = true := by
  rw [inRange_iff] at h
  rw [fitsU16_iff]
  omega

theorem length_le_of_inRange {n : Nat} {limit : Int} (h : inRange 1 limit n = true) : (n : Int) ≤ limit :=
  (inRange_iff.mp h).2

theorem readRequest_eq (fc : Byte) (limit a q : Int) :
    readRequest fc limit a q =
      if inRange 1 limit q then
        if fitsU16 a && fitsU16 q then .ok ([fc] ++ regBytes a ++ regBytes q) else .error .fieldOverflow
      else .error .invalidQuantity := by
  simp only [readRequest, require_inRange, encU16_eq]
  cases inRange 1 limit q <;> cases fitsU16 a <;> cases fitsU16 q <;> rfl

theorem writeCoilRequest_eq (a : Int) (c : CoilIn) :
    writeCoilRequest a c =
      if c.isCoil then
        if fitsU16 a then
          .ok ([fcWriteSingleCoil] ++ regBytes a ++ regBytes (if c = .bool true ∨ c = .int 0xFF00 then 0xFF00 else 0))
        else .error .fieldOverflow
      else .error .illegalValue := by
  have hfits : fitsU16 (if c = .bool true ∨ c = .int 0xFF00 then 0xFF00 else 0) = true := by split <;> rfl
  simp only [writeCoilRequest, coilNorm_eq, encU16_eq]
  cases c.isCoil <;> cases fitsU16 a <;> simp [hfits, regBytes, pure, Except.pure]

theorem writeRegisterRequest_eq (a v : Int) (signed : Bool) :
    writeRegisterRequest a v signed =
      if fitsU16 a && fitsReg signed v then .ok ([fcWriteSingleRegister] ++ regBytes a ++ regBytes v)
      else .error .fieldOverflow := by
  simp only [writeRegisterRequest, encU16_eq, enc16_eq]
  cases fitsU16 a <;> cases fitsReg signed v <;> rfl

theorem pack_eq (align : ShortAlign) (vs : List BitIn) :
    pack align vs = if vs.all BitIn.isBit then .ok (packBits align (vs.map bitSense)) else .error .notABit := by
  simp only [pack, bitvals_eq]
  cases vs.all BitIn.isBit <;> rfl

theorem fitsU8_byteCountCoils (n : Nat) : fitsU8 (byteCountCoils n) = decide (n ≤ 2040) := by
  rw [fitsU8, decide_eq_decide, byteCountCoils, ceilDiv]
  omega

theorem fitsU8_byteCountRegs {n : Nat} (h : (n : Int) ≤ maxReadRegs) : fitsU8 (byteCountRegs n) = true := by
  rw [fitsU8_iff, byteCountRegs]
  unfold maxReadRegs at h
  omega

theorem writeCoilsRequest_eq (align : ShortAlign) (a : Int) (vs : List BitIn) :
    writeCoilsRequest align a vs =
      if inRange 1 maxWriteCoils vs.length then
        if fitsU16 a then
          if vs.all BitIn.isBit then
            .ok ([fcWriteMultipleCoils] ++ regBytes a ++ regBytes vs.length ++
              [BitVec.ofInt 8 (byteCountCoils vs.length)] ++ packBits align (vs.map bitSense))
          else .error .notABit
        else .error .fieldOverflow
      else .error .invalidQuantity := by
  simp only [writeCoilsRequest, require_inRange, encU16_eq, encU8_eq, pack_eq]
  cases hn : inRange 1 maxWriteCoils vs.length
  · rfl
  · have hcount : fitsU8 (byteCountCoils vs.length) = true := by
      have := length_le_of_inRange hn
      unfold maxWriteCoils at this
      rw [fitsU8_byteCountCoils, decide_eq_true_eq]
      omega
    rw [fitsU16_of_inRange hn (by decide), hcount]
    cases fitsU16 a <;> cases vs.all BitIn.isBit <;> rfl

theorem all_map_pair_fitsReg (vs : List Int) (signed : Bool) :
    (vs.map (fun v => (v, signed))).all (fun p => fitsReg p.2 p.1) = vs.all (fitsReg signed) := by
  rw [List.all_map]; rfl

theorem writeRegistersRequest_eq (a : Int) (vs : List Int) (signed : Bool) :
    writeRegistersRequest a vs signed =
      if inRange 1 maxWriteRegs vs.length then
        if fitsU16 a && vs.all (fitsReg signed) then
          .ok ([fcWriteMultipleRegisters] ++ regBytes a ++ regBytes vs.length ++
            [BitVec.ofInt 8 (byteCountRegs vs.length)] ++ vs.flatMap regBytes)
        else .error .fieldOverflow
      else .error .invalidQuantity := by
  simp only [writeRegistersRequest, require_inRange, encU16_eq, encU8_eq, encRegs_eq,
    all_map_pair_fitsReg, List.flatMap_map]
  cases hn : inRange 1 maxWriteRegs vs.length
  · rfl
  · have hcount : fitsU8 (byteCountRegs vs.length) = true :=
      fitsU8_byteCountRegs ((length_le_of_inRange hn).trans (by decide))
    rw [fitsU16_of_inRange hn (by decide), hcount]
    cases fitsU16 a <;> cases vs.all (fitsReg signed) <;> rfl

theorem readBitsResponse_eq (fc : Byte) (align : ShortAlign) (vs : List BitIn) :
    readBitsResponse fc align vs =
      if vs.length ≤ 2040 then
        if vs.all BitIn.isBit then
          .ok ([fc] ++ [BitVec.ofInt 8 (byteCountCoils vs.length)] ++ packBits align (vs.map bitSense))
        else .error .notABit
      else .error .fieldOverflow := by
  simp only [readBitsResponse, encU8_eq, fitsU8_byteCountCoils, pack_eq]
  by_cases h : vs.length ≤ 2040
  · simp only [h, decide_true]
    cases vs.all BitIn.isBit <;> rfl
  · simp [h]

theorem readRegsResponse_eq (fc : Byte) (vs : List Int) (sg : Signedness) :
    readRegsResponse fc vs sg =
      if inRange 1 maxReadRegs vs.length then
        if lengthMatches vs.length sg then
          if (vs.zip (signFlags vs.length sg)).all (fun p => fitsReg p.2 p.1) then
            .ok ([fc] ++ [BitVec.ofInt 8 (byteCountRegs vs.length)] ++
              (vs.zip (signFlags vs.length sg)).flatMap (fun p => regBytes p.1))
          else .error .fieldOverflow
        else .error .lengthMismatch
      else .error .invalidQuantity := by
  simp only [readRegsResponse, require_inRange, encU8_eq, encRegs_eq]
  cases hn : inRange 1 maxReadRegs vs.length
  · rfl
  · rw [fitsU8_byteCountRegs (length_le_of_inRange hn)]
    cases lengthMatches vs.length sg <;>
      cases (vs.zip (signFlags vs.length sg)).all (fun p => fitsReg p.2 p.1) <;> rfl

theorem echoValueResponse_eq (fc : Byte) (a : Int) (echo : List Byte) :
    echoValueResponse fc a echo =
      if fitsU16 a then
        if 2 ≤ echo.length then .ok ([fc] ++ regBytes a ++ echo.take 2) else .error .shortPayload
      else .error .fieldOverflow := by
  simp only [echoValueResponse, encU16_eq, require_eq]
  cases fitsU16 a
  · rfl
  · by_cases h : 2 ≤ echo.length <;> simp [h, regBytes, pure, Except.pure]

theorem echoQuantityResponse_eq (fc : Byte) (a q : Int) :
    echoQuantityResponse fc a q =
      if fitsU16 a && fitsU16 q then .ok ([fc] ++ regBytes a ++ regBytes q) else .error .fieldOverflow := by
  simp only [echoQuantityResponse, encU16_eq]
  cases fitsU16 a <;> cases fitsU16 q <;> rfl

theorem exceptionPdu_eq (fc code : Int) :
    exceptionPdu fc code =
      if fitsU8 fc && fitsU8 code then .ok [BitVec.ofInt 8 fc ||| errorBias, BitVec.ofInt 8 code]
      else .error .fieldOverflow := by
  simp only [exceptionPdu, encU8_eq]
  cases fitsU8 fc <;> cases fitsU8 code <;> rfl

theorem parseBits32_eq (cs : List Char) :
    parseBits32 cs =
      if 1 ≤ cs.length ∧ cs.all isDigit ∧ stringValue cs < 2 ^ 32 then .ok (BitVec.ofNat 32 (stringValue cs))
      else .error .badDigitString := by
  simp only [parseBits32, require_eq, decide_eq_true_eq]
  by_cases hlen : 1 ≤ cs.length <;> by_cases hdigits : cs.all isDigit = true <;>
    by_cases hval : stringValue cs < 2 ^ 32 <;>
    simp [hlen, hdigits, hval, pure, Except.pure, -Nat.reducePow]

theorem renderInt_eq (n : Int) :
    renderInt n =
      if 0 ≤ n then .ok (if n = 0 then ['0'] else digitsOf (bitLength n.toNat) n.toNat) else .error .negativeInput := by
  simp only [renderInt, require_eq, decide_eq_true_eq]
  split_ifs <;> rfl

end Sys2Proof.Machine
end

section
/-! SUPPORT. What the build parameters can change (10_state.md R32): the packing of a short group and the verdict on a payload of more
than four bytes, and nothing else. -/

namespace Sys2Proof.Machine

open Sys2Proof.Stated

theorem packGroup_full (align align' : ShortAlign) {grp : List Bool} (h : grp.length = 8) :
    packGroup align grp = packGroup align' grp := by
  cases align <;> cases align' <;> simp [packGroup, h]

theorem length_of_mem_bitGroups {bs grp : List Bool} (hfull : bs.length % 8 = 0) (h : grp ∈ bitGroups bs) :
    grp.length = 8 := by
  obtain ⟨g, hg, rfl⟩ := List.mem_map.mp h
  rw [List.mem_range, ceilDiv] at hg
  rw [List.length_take, List.length_drop]
  omega

theorem packBits_full (align align' : ShortAlign) {bs : List Bool} (hfull : bs.length % 8 = 0) :
    packBits align bs = packBits align' bs :=
  List.map_congr_left fun _ hgrp => packGroup_full align align' (length_of_mem_bitGroups hfull hgrp)

theorem pack_full (align align' : ShortAlign) {vs : List BitIn} (hfull : vs.length % 8 = 0) :
    pack align vs = pack align' vs := by
  rw [pack_eq, pack_eq, packBits_full align align' (by rwa [List.length_map])]

theorem lenOK_short (policy policy' : LenPolicy) {data : List Byte} (h : data.length ≤ 4) :
    lenOK policy data = lenOK policy' data := by
  have hpolicy : ∀ p, lenOK p data = decide (data.length = 4) := by
    intro p
    cases p with
    | exactLength => rfl
    | prefixLength => exact decide_eq_decide.mpr (by omega)
  rw [hpolicy, hpolicy]

/-- Where the build parameters cannot matter, the answer is the same under every build. -/
theorem answerOf_eq_of_buildFree (build build' : Config) {i : Instr} (h : BuildFree i) :
    answerOf build i = answerOf build' i := by
  cases i
  case pack vs => simp only [answerOf, pack_full build.packShortAlign build'.packShortAlign h]
  case reqWmc a vs =>
    simp only [answerOf, writeCoilsRequest, pack_full build.packShortAlign build'.packShortAlign h]
  case rspRc vs => simp only [answerOf, readBitsResponse, pack_full build.packShortAlign build'.packShortAlign h]
  case rspRdi vs => simp only [answerOf, readBitsResponse, pack_full build.packShortAlign build'.packShortAlign h]
  case val data fc a ev eq signed =>
    simp only [answerOf, validate, lenOK_short build.valLenPolicy build'.valLenPolicy h]
  all_goals rfl

end Sys2Proof.Machine
end

section
/-! SUPPORT. The answers against the tables (10_state.md R25, R27; 60_exceptions.md R300): every answer is in them, and every error in
them is an answer. -/

namespace Sys2Proof.Machine

/-- The result is an `Ok` of the kind the operand table gives the operation, or an error the error table lists for it. -/
def FollowsTables (op : Op) (r : Result) : Prop := kindOf r = some (resultKind op) ∨ ∃ e ∈ raises op, r = .err e

theorem followsTables_toResult {α : Type} {op : Op} {mk : α → Result} {r : Except ErrorCode α}
    (hkind : ∀ v, kindOf (mk v) = some (resultKind op)) (herr : ∀ e, r = .error e → e ∈ raises op) :
    FollowsTables op (toResult mk r) := by
  cases r with
  | ok v => exact .inl (hkind v)
  | error e => exact .inr ⟨e, herr e rfl, rfl⟩

theorem answerOf_followsTables (build : Config) (i : Instr) : FollowsTables i.op (answerOf build i) := by
  cases i
  case val | f2b => exact .inl rfl
  all_goals
    refine followsTables_toResult (fun _ => rfl) fun e he => ?_
    simp only [readRequest_eq, writeCoilRequest_eq, writeRegisterRequest_eq, writeCoilsRequest_eq,
      writeRegistersRequest_eq, readBitsResponse_eq, readRegsResponse_eq, echoValueResponse_eq,
      echoQuantityResponse_eq, exceptionPdu_eq, pack_eq, parseBits32_eq, renderInt_eq] at he
    split_ifs at he <;> cases he <;> simp [Instr.op, raises]

/-- More values than the byte count of a response of bits can hold (42_response_encoder.md R171). -/
def tooManyBits : List BitIn := List.replicate 2041 (.bool false)

theorem tooManyBits_length : 2040 < tooManyBits.length := by
  rw [tooManyBits, List.length_replicate]
  decide

theorem readBitsResponse_tooManyBits (fc : Byte) (align : ShortAlign) :
    readBitsResponse fc align tooManyBits = .error .fieldOverflow := by
  rw [readBitsResponse_eq, if_neg (Nat.not_le.mpr tooManyBits_length)]

/-- Operands on which an operation that can return `e` does return it: one record an error, but for the bits of an overflow, which
REQ.WMC meets in its address and a response of bits only in its byte count. -/
def offending (op : Op) : ErrorCode → OperandRecord
  | .illegalValue => { OperandRecord.zero with coil := .int 1 }
  | .fieldOverflow =>
    { OperandRecord.zero with
      address := 65536, quantity := 1, regs := [65536], fc := 256
      bits := if op = .reqWmc then [.bool true] else tooManyBits }
  | .notABit => { OperandRecord.zero with bits := [.int 2] }
  | .lengthMismatch => { OperandRecord.zero with regs := [0], signedness := .perElement [] }
  | .negativeInput => { OperandRecord.zero with number := -1 }
  | .invalidQuantity | .shortPayload | .badDigitString | .undefinedCommand => OperandRecord.zero

theorem answerOf_offending (build : Config) {op : Op} {e : ErrorCode} (h : e ∈ raises op) :
    answerOf build (op.instr (offending op e)) = .err e := by
  cases op
  case rspRc | rspRdi =>
    rcases List.mem_pair.mp h with rfl | rfl
    · simp only [Op.instr, answerOf, offending, reduceCtorEq, if_false, readBitsResponse_tooManyBits, toResult_error]
    · rfl
  all_goals
    simp only [raises] at h
    fin_cases h <;> rfl

end Sys2Proof.Machine
end

section
/-! PROOFS. The family of 10_state.md: what every instruction returns and leaves unchanged (O33, O34, O37), the operands it reads
(O5), the step that runs it (O6), and the error bias (O25). -/

namespace Sys2Proof.Proofs

open Sys2Proof.Machine Sys2Proof.Stated

/-- Settles O33: the answers follow the tables, and each listed error has operands that raise it under every build. -/
theorem resultKindsAndErrorsAreTheTables : Obligations.ResultKindsAndErrorsAreTheTables := by
  unfold Obligations.ResultKindsAndErrorsAreTheTables
  refine ⟨fun i s => ⟨answerOf s.build i, exec_eq_answered i s, answerOf_followsTables s.build i⟩, ?_⟩
  intro op e he s
  exact ⟨offending op e, by rw [exec_eq_answered, answerOf_offending s.build he]⟩

/-- Settles O34: an instruction only responds, and a response touches the outbox alone. -/
theorem everyInstructionOnlyReturnsAResult : Obligations.EveryInstructionOnlyReturnsAResult := by
  unfold Obligations.EveryInstructionOnlyReturnsAResult
  intro i s s' h
  obtain ⟨r, hr⟩ := exec_responds i s
  obtain rfl : s.respond r = s' := Host.Outcome.next.inj (hr.symm.trans h)
  exact ⟨respond_build s r, respond_inbox s r, respond_issuer s r, r, respond_outbox s r⟩

/-- Settles O37: both states give the answer of the same build-free instruction. -/
theorem buildParametersMatterOnlyWhereNamed : Obligations.BuildParametersMatterOnlyWhereNamed := by
  unfold Obligations.BuildParametersMatterOnlyWhereNamed
  intro i s c hfree
  refine ⟨answerOf s.build i, exec_eq_answered i s, ?_⟩
  rw [exec_eq_answered, answerOf_eq_of_buildFree c s.build hfree]

/-- Settles O5: an operation is a constructor applied to the lanes of its row, and constructors are injective. -/
theorem operandTableNamesEveryOperandRead : Obligations.OperandTableNamesEveryOperandRead := by
  unfold Obligations.OperandTableNamesEveryOperandRead
  intro op o o'
  cases op <;> simp [Op.instr, operandLanes, sameLane]

/-- Settles O6: the fetch of a decodable transaction hands its instruction to `exec`, in the serving state. -/
theorem stepRunsTheDecodedInstruction : Obligations.StepRunsTheDecodedInstruction := by
  unfold Obligations.StepRunsTheDecodedInstruction
  intro s t rest i hinbox hdecode
  rw [step, fetch_issue hinbox, hdecode]
  rfl

/-- Bit 7 is clear in the eight function codes, so setting it adds 80 hexadecimal. -/
theorem or_errorBias_eq_add {fc : Byte} (h : fc ∈ functionCodes) : fc ||| errorBias = fc + errorBias := by
  revert fc
  decide

theorem add_errorBias_mem {fc : Byte} (h : fc ∈ functionCodes) :
    fc + errorBias ∈ ([0x81, 0x82, 0x83, 0x84, 0x85, 0x86, 0x8F, 0x90] : List Byte) := by
  revert fc
  decide

theorem ofInt_eq_byteOf {v : Int} (h : Fits8 v) : BitVec.ofInt 8 v = byteOf v.toNat := by
  obtain ⟨n, rfl⟩ := Int.eq_ofNat_of_zero_le h.1
  exact BitVec.ofInt_natCast 8 n

/-- Settles O25: both bytes fit, and on the eight function codes the or of R240 is an addition. -/
theorem errorBiasOrIsAddForTheTable : Obligations.ErrorBiasOrIsAddForTheTable := by
  unfold Obligations.ErrorBiasOrIsAddForTheTable
  intro s fc code hfc hcode
  refine ⟨?_, add_errorBias_mem hfc⟩
  have hfits : (fitsU8 fc.toNat && fitsU8 code) = true := by
    rw [Bool.and_eq_true, fitsU8_iff, fitsU8_iff]
    exact ⟨by omega, hcode⟩
  have hpdu : exceptionPdu fc.toNat code = .ok [fc + errorBias, byteOf code.toNat] := by
    rw [exceptionPdu_eq, if_pos hfits, ofInt_eq_byteOf hcode, BitVec.ofInt_natCast, BitVec.ofNat_toNat,
      BitVec.setWidth_eq, or_errorBias_eq_add hfc]
  rw [exec_eq_answered, answerOf, hpdu, toResult_ok]

end Sys2Proof.Proofs
end

section
/-! SUPPORT. The result of a transaction as a function of the build and of what its host presents, and what a step does with the
stimulus at the head of the inbox (20_memory.md R51, R53; 70_reset_and_hazards.md R340, R341). -/

namespace Sys2Proof.Machine

/-- The result of a transaction under a build: the answer of its instruction, or the error of its decode (30_encoding.md R62). -/
def transactionResult (build : Config) (t : Transaction) : Result :=
  match decode t.cmd t.operands with
  | .ok i => answerOf build i
  | .error e => .err e

theorem transactionResult_congr (build : Config) {t t' : Transaction} (hcmd : t.cmd = t'.cmd)
    (hoperands : t.operands = t'.operands) : transactionResult build t = transactionResult build t' := by
  rw [transactionResult, transactionResult, hcmd, hoperands]

/-- `step_issue` with the result named: it depends on the build and the transaction alone. -/
theorem step_issue_eq {s : State} {t : Transaction} {rest : List Stimulus} (h : s.inbox = .issue t :: rest) :
    step s = .next ((s.accept t rest).respond (transactionResult s.build t)) := by
  rw [step, fetch_issue h, transactionResult]
  cases decode t.cmd t.operands with
  | error e => rfl
  | ok i => exact exec_eq_answered i _

theorem answerAlone_eq (build : Config) (t : Transaction) :
    answerAlone build t = [{ host := t.host, result := transactionResult build t }] := by
  have hinbox : (State.alone build t).inbox = .issue t :: [] := rfl
  rw [answerAlone, step_issue_eq hinbox]
  rfl

@[simp] theorem answers_issue (build : Config) (t : Transaction) :
    Stimulus.answers build (.issue t) = [{ host := t.host, result := transactionResult build t }] := answerAlone_eq build t
@[simp] theorem answers_reset (build : Config) : Stimulus.answers build .reset = [] := rfl
@[simp] theorem answers_resetDuring (build : Config) (t : Transaction) :
    Stimulus.answers build (.resetDuring t) = [] := rfl

/-- A step takes the next stimulus and returns what that stimulus returns alone. -/
theorem step_serves {s : State} {x : Stimulus} {rest : List Stimulus} (h : s.inbox = x :: rest) :
    ∃ s', step s = .next s' ∧ s'.build = s.build ∧ s'.inbox = rest ∧ s'.outbox = s.outbox ++ x.answers s.build := by
  cases x with
  | issue t => exact ⟨_, step_issue_eq h, rfl, rfl, by simp⟩
  | reset => exact ⟨s.pass rest, by rw [step, fetch_reset h], rfl, rfl, by simp⟩
  | resetDuring t => exact ⟨s.pass rest, by rw [step, fetch_resetDuring h], rfl, rfl, by simp⟩

theorem history_of_inbox_nil {s : State} (h : s.inbox = []) : s.history = s.outbox := by
  simp [State.history, h]

/-- Moving what the first stimulus returns from the stimuli to come to the results returned leaves the history as it is. -/
theorem history_of_served {s s' : State} {x : Stimulus} {rest : List Stimulus} (h : s.inbox = x :: rest)
    (hbuild : s'.build = s.build) (hinbox : s'.inbox = rest) (houtbox : s'.outbox = s.outbox ++ x.answers s.build) :
    s'.history = s.history := by
  simp [State.history, h, hbuild, hinbox, houtbox]

theorem step_history {s s' : State} (hstep : step s = .next s') : s'.history = s.history := by
  cases h : s.inbox with
  | nil =>
    have hidle : step s = .next s := by rw [step, fetch_idle h]
    obtain rfl : s = s' := Host.Outcome.next.inj (hidle.symm.trans hstep)
    rfl
  | cons x rest =>
    obtain ⟨s₁, hstep₁, hbuild, hinbox, houtbox⟩ := step_serves h
    obtain rfl : s₁ = s' := Host.Outcome.next.inj (hstep₁.symm.trans hstep)
    exact history_of_served h hbuild hinbox houtbox

theorem run_succ_of_step {s s' : State} (k : Nat) (h : step s = .next s') :
    Host.Core.run core (k + 1) s = Host.Core.run core k s' := by
  have hcore : core.step s = .next s' := h
  simp only [Host.Core.run, hcore]

/-- A run of one step a stimulus empties the inbox and keeps the history. -/
theorem run_serves_inbox (s : State) :
    ∃ s' : State, Host.Core.run core s.inbox.length s = Host.Outcome.next s' ∧ s'.inbox = [] ∧ s'.history = s.history := by
  induction h : s.inbox generalizing s with
  | nil => exact ⟨s, rfl, h, rfl⟩
  | cons x rest ih =>
    obtain ⟨s₁, hstep, -, hinbox, -⟩ := step_serves h
    obtain ⟨s', hrun, hempty, hhistory⟩ := ih s₁ hinbox
    refine ⟨s', ?_, hempty, hhistory.trans (step_history hstep)⟩
    rw [List.length_cons, run_succ_of_step _ hstep, hrun]

/-- What a stimulus returns goes to the host it is from, and to no other. -/
theorem responsesTo_answers (h : Nat) (build : Config) (x : Stimulus) :
    responsesTo h (x.answers build) = if x.isFrom h then x.answers build else [] := by
  cases x with
  | issue t =>
    rw [answers_issue, responsesTo, List.filter_singleton]
    exact Bool.cond_eq_ite _ _ _
  | reset => rfl
  | resetDuring t => rfl

theorem responsesTo_append (h : Nat) (rs rs' : List Response) :
    responsesTo h (rs ++ rs') = responsesTo h rs ++ responsesTo h rs' := List.filter_append rs rs'

theorem responsesTo_flatMap_answers (h : Nat) (build : Config) (xs : List Stimulus) :
    responsesTo h (xs.flatMap (Stimulus.answers build)) =
      (xs.filter (Stimulus.isFrom h)).flatMap (Stimulus.answers build) := by
  induction xs with
  | nil => rfl
  | cons x xs ih =>
    rw [List.flatMap_cons, responsesTo_append, ih, responsesTo_answers, List.filter_cons]
    split <;> rfl

end Sys2Proof.Machine
end

section
/-! PROOFS. The family of 20_memory.md: a result depends on the transaction alone (O36), and every result to come and returned is
kept by each step (O38) and by the run that serves all (O39). -/

namespace Sys2Proof.Proofs

open Sys2Proof.Machine Sys2Proof.Stated

/-- Settles O38: a step that serves a stimulus returns what the stimulus returns alone, and no other step changes anything. -/
theorem historyIsKeptByEveryStep : Obligations.HistoryIsKeptByEveryStep := by
  unfold Obligations.HistoryIsKeptByEveryStep
  exact fun _ _ => step_history

/-- Settles O36: both steps return the result that the build, the command word and the operands determine. -/
theorem sameTransactionSameResult : Obligations.SameTransactionSameResult := by
  unfold Obligations.SameTransactionSameResult
  intro t t' s s' hcmd hoperands hbuild
  refine ⟨transactionResult s.build t, step_issue_eq (present_inbox s t), ?_⟩
  rw [transactionResult_congr s.build hcmd hoperands, hbuild]
  exact step_issue_eq (present_inbox s' t')

/-- Settles O39: when the run has emptied the inbox the history, which it kept, is what has been returned. -/
theorem eachHostGetsTheAnswersOfItsOwnTransactions : Obligations.EachHostGetsTheAnswersOfItsOwnTransactions := by
  unfold Obligations.EachHostGetsTheAnswersOfItsOwnTransactions
  intro s
  obtain ⟨s', hrun, hempty, hhistory⟩ := run_serves_inbox s
  have houtbox : s'.outbox = s.outbox ++ s.inbox.flatMap (Stimulus.answers s.build) := by
    rw [← history_of_inbox_nil hempty, hhistory, State.history]
  refine ⟨s', hrun, hempty, houtbox, fun h => ?_⟩
  rw [houtbox, responsesTo_append, responsesTo_flatMap_answers]

end Sys2Proof.Proofs
end

section
/-! SUPPORT. The command word and its decoder (30_encoding.md R60 to R62): a word selects an operation exactly if it is that
operation's word, and the rows of R61 are the operations with their words. -/

namespace Sys2Proof

open Sys2Proof.Machine Sys2Proof.Stated

theorem cmdUnit_cmd (op : Op) : cmdUnit op.cmd = op.unit := BitVec.extractLsb'_append_eq_left

theorem cmdSel_cmd (op : Op) : cmdSel op.cmd = op.sel := BitVec.extractLsb'_append_eq_right

/-- A command word is its unit above its selector. -/
theorem cmdUnit_append_cmdSel (cmd : Word16) : cmdUnit cmd ++ cmdSel cmd = cmd := by
  rw [cmdUnit, cmdSel, BitVec.extractLsb'_append_extractLsb'_eq_extractLsb' (by decide : 8 = 0 + 8),
    BitVec.extractLsb'_eq_self]

theorem decodeOp_eq_some_iff {cmd : Word16} {op : Op} : decodeOp cmd = some op ↔ cmd = op.cmd := by
  constructor
  · intro h
    have hrow := List.find?_some h
    rw [Bool.and_eq_true, beq_iff_eq, beq_iff_eq] at hrow
    rw [← cmdUnit_append_cmdSel cmd, ← hrow.1, ← hrow.2, Op.cmd]
  · rintro rfl
    exact Laws.decodeOp_cmd op

theorem decode_cmd (op : Op) (o : OperandRecord) : decode op.cmd o = .ok (op.instr o) := by
  rw [decode, Laws.decodeOp_cmd]

theorem decode_eq_ok_iff {cmd : Word16} {o : OperandRecord} {i : Instr} :
    decode cmd o = .ok i ↔ ∃ op : Op, cmd = op.cmd ∧ op.instr o = i := by
  constructor
  · intro h
    rw [decode] at h
    split at h
    · next op hop => exact ⟨op, decodeOp_eq_some_iff.mp hop, Except.ok.inj h⟩
    · cases h
  · rintro ⟨op, rfl, rfl⟩
    exact decode_cmd op o

theorem decode_of_ne_cmd {cmd : Word16} (o : OperandRecord) (h : ∀ op : Op, cmd ≠ op.cmd) :
    decode cmd o = .error .undefinedCommand := by
  have hnone : decodeOp cmd = none :=
    Option.eq_none_iff_forall_ne_some.mpr fun op hop => h op (decodeOp_eq_some_iff.mp hop)
  rw [decode, hnone]

theorem commandTable_eq : commandTable = Op.all.map (fun op => (op.cmd, op.instr)) := rfl

theorem mem_commandTable_iff {row : Word16 × (OperandRecord → Instr)} :
    row ∈ commandTable ↔ ∃ op : Op, row = (op.cmd, op.instr) := by
  rw [commandTable_eq, List.mem_map]
  constructor
  · rintro ⟨op, -, rfl⟩
    exact ⟨op, rfl⟩
  · rintro ⟨op, rfl⟩
    exact ⟨op, by cases op <;> decide, rfl⟩

theorem op_instr (op : Op) (o : OperandRecord) : (op.instr o).op = op := by
  cases op <;> rfl

/-- An operation reads back from the encoder's record the operands of its instruction. -/
theorem instr_record (i : Instr) : i.op.instr i.record = i := by
  cases i <;> rfl

theorem decode_encode (i : Instr) : decode (encode i).1 (encode i).2 = .ok i := by
  rw [encode, decode_cmd, instr_record]

end Sys2Proof
end

section
/-! SUPPORT. The lanes of an operand record (10_state.md R27; log entries 4 and 7): one update a lane with its frame, the literal of
30_encoding.md R74 that writes a lane, and the encoder's record as the record of zeros with the lanes of its row copied in. -/

namespace Sys2Proof.Machine

open Sys2Proof.Stated

/-- `o` with one lane taken from `src`. -/
def copyLane (src o : OperandRecord) : Lane → OperandRecord
  | .address => { o with address := src.address }
  | .quantity => { o with quantity := src.quantity }
  | .coil => { o with coil := src.coil }
  | .value => { o with value := src.value }
  | .signed => { o with signed := src.signed }
  | .bits => { o with bits := src.bits }
  | .regs => { o with regs := src.regs }
  | .signedness => { o with signedness := src.signedness }
  | .echo => { o with echo := src.echo }
  | .data => { o with data := src.data }
  | .fc => { o with fc := src.fc }
  | .expectedValue => { o with expectedValue := src.expectedValue }
  | .expectedQuantity => { o with expectedQuantity := src.expectedQuantity }
  | .exceptionCode => { o with exceptionCode := src.exceptionCode }
  | .pattern => { o with pattern := src.pattern }
  | .digits => { o with digits := src.digits }
  | .number => { o with number := src.number }

theorem sameLane_refl (o : OperandRecord) (lane : Lane) : sameLane o o lane := by
  cases lane <;> exact rfl

theorem sameLane_trans {a b c : OperandRecord} {lane : Lane} (h : sameLane a b lane) (h' : sameLane b c lane) :
    sameLane a c lane := by
  cases lane <;> exact Eq.trans h h'

/-- Copying one lane leaves every other lane as it was. -/
theorem sameLane_copyLane_of_ne (src o : OperandRecord) {lane lane' : Lane} (h : lane' ≠ lane) :
    sameLane (copyLane src o lane) o lane' := by
  cases lane <;> cases lane' <;> trivial

theorem sameLane_foldl_copyLane_of_not_mem (src o : OperandRecord) {lanes : List Lane} {lane : Lane}
    (h : lane ∉ lanes) : sameLane (lanes.foldl (copyLane src) o) o lane := by
  induction lanes generalizing o with
  | nil => exact sameLane_refl o lane
  | cons l lanes ih =>
    obtain ⟨hne, hrest⟩ := List.ne_and_not_mem_of_not_mem_cons h
    exact sameLane_trans (ih _ hrest) (sameLane_copyLane_of_ne src o hne)

/-- The encoder's record: zeros, and the operands of the instruction in the lanes of its row. -/
theorem record_eq_foldl_copyLane (i : Instr) :
    i.record = (operandLanes i.op).foldl (copyLane i.record) OperandRecord.zero := by
  cases i <;> rfl

/-- The literal of a coil write value. -/
def coilLiteral : CoilIn → Literal
  | .bool b => .bool b
  | .int v => .int v

/-- The literal of a signedness. -/
def signednessLiteral : Signedness → Literal
  | .uniform b => .flag b
  | .perElement fs => .per fs

/-- The literal of an optional integer. -/
def optIntLiteral : Option Int → Literal
  | none => .absent
  | some v => .int v

/-- The literal that writes a lane of a record (30_encoding.md R74). -/
def laneLiteral (o : OperandRecord) : Lane → Literal
  | .address => .int o.address
  | .quantity => .int o.quantity
  | .coil => coilLiteral o.coil
  | .value => .int o.value
  | .signed => .flag o.signed
  | .bits => .list o.bits
  | .regs => .list (o.regs.map .int)
  | .signedness => signednessLiteral o.signedness
  | .echo => .bytes o.echo
  | .data => .bytes o.data
  | .fc => .int o.fc
  | .expectedValue => optIntLiteral o.expectedValue
  | .expectedQuantity => optIntLiteral o.expectedQuantity
  | .exceptionCode => .int o.exceptionCode
  | .pattern => .int o.pattern.toNat
  | .digits => .text o.digits
  | .number => .int o.number

@[simp] theorem literalCoil_coilLiteral (c : CoilIn) : literalCoil (coilLiteral c) = some c := by
  cases c <;> rfl

@[simp] theorem literalSignedness_signednessLiteral (sg : Signedness) :
    literalSignedness (signednessLiteral sg) = some sg := by
  cases sg <;> rfl

@[simp] theorem literalOptInt_optIntLiteral (v : Option Int) : literalOptInt (optIntLiteral v) = some v := by
  cases v <;> rfl

@[simp] theorem intsOf_map_int (vs : List Int) : intsOf (vs.map .int) = some vs := by
  induction vs with
  | nil => rfl
  | cons v vs ih => rw [List.map_cons, intsOf, ih, Option.map_some]

@[simp] theorem literalBits32_toNat (x : Bits32) : literalBits32 (.int x.toNat) = some x := by
  have hrange : 0 ≤ (x.toNat : Int) ∧ (x.toNat : Int) < 2 ^ 32 := by omega
  rw [literalBits32, if_pos hrange, BitVec.ofInt_natCast, BitVec.ofNat_toNat, BitVec.setWidth_eq]

theorem setLane_laneLiteral (src o : OperandRecord) (lane : Lane) :
    setLane o (laneLiteral src lane) lane = some (copyLane src o lane) := by
  cases lane
  case coil | regs | signedness | expectedValue | expectedQuantity | pattern =>
    simp [setLane, laneLiteral, copyLane, literalInts]
  all_goals rfl

theorem fillLanes_map_laneLiteral (src o : OperandRecord) (lanes : List Lane) :
    fillLanes o lanes (lanes.map (laneLiteral src)) = some (lanes.foldl (copyLane src) o) := by
  induction lanes generalizing o with
  | nil => rfl
  | cons lane lanes ih =>
    rw [List.map_cons, fillLanes, setLane_laneLiteral, Option.bind_some, ih, List.foldl_cons]

end Sys2Proof.Machine
end

section
/-! PROOFS. The command word (30_encoding.md section 1): O1, O2, O4; and the literals that write
every instruction (section 4): O50. -/

namespace Sys2Proof.Proofs

open Sys2Proof.Machine Sys2Proof.Stated

/-- Settles O1: seven of the words are those of their operations, and no operation has the word 0x0107. -/
theorem sampleCommandWordsDecode : Obligations.SampleCommandWordsDecode := by
  unfold Obligations.SampleCommandWordsDecode
  exact fun o => ⟨decode_cmd .reqRc o, decode_cmd .reqWmc o, decode_cmd .rspRir o, decode_cmd .val o, decode_cmd .exc o,
    decode_cmd .pack o, decode_cmd .i2b o, decode_of_ne_cmd o fun op => by cases op <;> decide⟩

/-- Settles O2: a word of the table decodes to its row's instruction, and a word of no operation does not decode. -/
theorem everyCommandWordSelectsOrIsRejected : Obligations.EveryCommandWordSelectsOrIsRejected := by
  unfold Obligations.EveryCommandWordSelectsOrIsRejected
  intro s t rest hinbox
  constructor
  · intro row hrow hcmd
    obtain ⟨op, rfl⟩ := mem_commandTable_iff.mp hrow
    exact stepRunsTheDecodedInstruction s t rest _ hinbox (decode_eq_ok_iff.mpr ⟨op, hcmd, rfl⟩)
  · intro hunlisted
    have hdecode : decode t.cmd t.operands = .error .undefinedCommand :=
      decode_of_ne_cmd _ fun op => hunlisted _ (mem_commandTable_iff.mpr ⟨op, rfl⟩)
    rw [step, fetch_issue hinbox, hdecode]
    rfl

/-- Settles O4: the operation makes the same instruction of the encoder's record and of the given one, so they agree in the lanes it
reads (O5); the encoder copies no other lane into the record of zeros. -/
theorem decodeAndEncodeAgree : Obligations.DecodeAndEncodeAgree := by
  unfold Obligations.DecodeAndEncodeAgree
  refine ⟨decode_encode, ?_, ?_⟩
  · intro cmd o i hdecode
    obtain ⟨op, rfl, rfl⟩ := decode_eq_ok_iff.mp hdecode
    have hrecord := instr_record (op.instr o)
    rw [op_instr] at hrecord
    rw [encode, op_instr]
    exact ⟨rfl, (operandTableNamesEveryOperandRead op _ o).mp hrecord⟩
  · intro i lane hlane
    rw [encode, record_eq_foldl_copyLane]
    exact sameLane_foldl_copyLane_of_not_mem i.record OperandRecord.zero hlane

/-- Settles O50: the literals of the row's lanes fill the encoder's record. -/
theorem notationWritesEveryInstruction : Obligations.NotationWritesEveryInstruction := by
  unfold Obligations.NotationWritesEveryInstruction
  intro i
  refine ⟨(operandLanes i.op).map (laneLiteral i.record), ?_⟩
  rw [assembleRecord, fillLanes_map_laneLiteral, ← record_eq_foldl_copyLane, Option.map_some, instr_record]

end Sys2Proof.Proofs
end

section
/-! SUPPORT. The fields of a PDU (30_encoding.md section 2): the checks of the encoders as the statements' ranges, the bytes they give
as the statements' bytes, and the number two bytes hold. -/

namespace Sys2Proof.Machine

open Sys2Proof.Stated

theorem fitsU8_iff_fits8 {v : Int} : fitsU8 v = true ↔ Fits8 v := fitsU8_iff

theorem fitsReg_iff_regFits {signed : Bool} {v : Int} : fitsReg signed v = true ↔ RegFits signed v := by
  cases signed <;> simp [fitsReg, RegFits]

/-- The 16 bits of a value are its residue. -/
theorem toNat_ofInt16 (v : Int) : (BitVec.ofInt 16 v).toNat = (v % 65536).toNat := BitVec.toNat_ofInt v

theorem hiByte_ofInt (v : Int) : hiByte (BitVec.ofInt 16 v) = hi v := by
  apply BitVec.eq_of_toNat_eq
  rw [hiByte, BitVec.extractLsb'_toNat, toNat_ofInt16, Nat.shiftRight_eq_div_pow, hi, BitVec.toNat_ofNat]

theorem loByte_ofInt (v : Int) : loByte (BitVec.ofInt 16 v) = lo v := by
  apply BitVec.eq_of_toNat_eq
  rw [loByte, BitVec.extractLsb'_toNat, toNat_ofInt16, lo, BitVec.toNat_ofNat, Nat.shiftRight_zero, Nat.mod_mod]

theorem regBytes_eq_hi_lo (v : Int) : regBytes v = [hi v, lo v] := by
  rw [regBytes, hiByte_ofInt, loByte_ofInt]

theorem encU8_of_fits8 {v : Int} (h : Fits8 v) : encU8 v = .ok [byteOf v.toNat] := by
  rw [encU8_eq, if_pos (fitsU8_iff_fits8.mpr h), Proofs.ofInt_eq_byteOf h]

theorem encU8_of_not_fits8 {v : Int} (h : ¬ Fits8 v) : encU8 v = .error .fieldOverflow := by
  rw [encU8_eq, if_neg (mt fitsU8_iff_fits8.mp h)]

theorem enc16_of_regFits {signed : Bool} {v : Int} (h : RegFits signed v) : enc16 v signed = .ok [hi v, lo v] := by
  rw [enc16_eq, if_pos (fitsReg_iff_regFits.mpr h), ← regBytes_eq_hi_lo, regBytes]

theorem enc16_of_not_regFits {signed : Bool} {v : Int} (h : ¬ RegFits signed v) :
    enc16 v signed = .error .fieldOverflow := by
  rw [enc16_eq, if_neg (mt fitsReg_iff_regFits.mp h)]

/-- High byte first, the two bytes hold the residue of the value. -/
theorem toNat_hi_lo (v : Int) : ((hi v).toNat : Int) * 256 + (lo v).toNat = v % 65536 := by
  rw [hi, lo, BitVec.toNat_ofNat, BitVec.toNat_ofNat]
  omega

theorem dec16_eq_fieldValue (b0 b1 : Byte) (signed : Bool) : dec16 b0 b1 signed = fieldValue b0 b1 signed := by
  cases signed with
  | false => simp [dec16, fieldValue]
  | true =>
    simp only [dec16, sext16, fieldValue, if_true, true_and]
    split_ifs <;> omega

theorem dec16_hi_lo {signed : Bool} {v : Int} (h : RegFits signed v) : dec16 (hi v) (lo v) signed = v := by
  obtain ⟨hsigned, hunsigned⟩ := h
  rw [dec16_eq_fieldValue, fieldValue, toNat_hi_lo]
  cases signed with
  | false =>
    have := hunsigned rfl
    simp only [Bool.false_eq_true, false_and, if_false]
    omega
  | true =>
    have := hsigned rfl
    simp only [true_and]
    split_ifs <;> omega

theorem byteCountCoils_eq (n : Nat) : byteCountCoils n = (n + 7) / 8 := rfl

end Sys2Proof.Machine
end

section
/-! PROOFS. The fields of 30_encoding.md section 2: O44, O45, O46, O47. -/

namespace Sys2Proof.Proofs

open Sys2Proof.Machine Sys2Proof.Stated

/-- Settles O44: the checks are the ranges of R64 and R65, and the bytes those of the residue. -/
theorem fieldEncodersFollowTheirRules : Obligations.FieldEncodersFollowTheirRules := by
  unfold Obligations.FieldEncodersFollowTheirRules
  exact ⟨fun _ => ⟨encU8_of_fits8, encU8_of_not_fits8⟩, fun _ _ => ⟨enc16_of_regFits, enc16_of_not_regFits⟩, fun _ => rfl⟩

/-- Settles O45: the sign extension of R15 takes 65536 off exactly the numbers from 32768 on. -/
theorem fieldDecoderFollowsItsRule : Obligations.FieldDecoderFollowsItsRule := by
  unfold Obligations.FieldDecoderFollowsItsRule
  exact dec16_eq_fieldValue

/-- Settles O46: both counts are linear arithmetic. -/
theorem byteCountsFollowTheirRules : Obligations.ByteCountsFollowTheirRules := by
  unfold Obligations.ByteCountsFollowTheirRules
  refine ⟨fun n => ?_, rfl, fun n => Nat.mul_comm 2 n⟩
  rw [byteCountCoils_eq]
  omega

/-- Settles O47: the bytes of a field do not depend on the flag, and they hold the value's residue, which decoding reads. -/
theorem fieldConsequencesHold : Obligations.FieldConsequencesHold := by
  unfold Obligations.FieldConsequencesHold
  refine ⟨fun v hsigned hunsigned => ?_, fun n hn => ?_, fun v signed hfits => ?_⟩
  · rw [enc16_of_regFits hsigned, enc16_of_regFits hunsigned]
  · rw [byteCountCoils_eq]
    omega
  · exact ⟨hi v, lo v, enc16_of_regFits hfits, dec16_hi_lo hfits⟩

end Sys2Proof.Proofs
end

section
/-! SUPPORT. The PDU formats (30_encoding.md R70, R73): every byte sequence an operation with a format returns begins with the
operation's code byte, has the length of its format, and holds its byte count where the receiver reads it. -/

namespace Sys2Proof.Machine

open Sys2Proof.Stated

/-- Where a format holds its byte count: it is the last byte before the counted ones (R70). -/
def countOffset : PduFormat → Option Nat
  | .wmc | .wmr => some 5
  | .rbits | .rregs => some 1
  | .read | .wsingle | .echoV | .echoQ | .exc | .valin => none

/-- `pdu` is a PDU of format `f` with `n` elements and first byte `code` (R70). -/
structure IsPdu (f : PduFormat) (n : Nat) (code : Byte) (pdu : List Byte) : Prop where
  head : pdu.head? = some code
  length : pdu.length = formatLength n f
  count : ∀ k, countOffset f = some k → pdu[k]?.map (fun b => k + 1 + b.toNat) = some pdu.length

theorem length_regBytes (v : Int) : (regBytes v).length = 2 := rfl

theorem length_packBits (align : ShortAlign) (bs : List Bool) :
    (packBits align bs).length = byteCountCoils bs.length := by
  rw [packBits, List.length_map, bitGroups, List.length_map, List.length_range, byteCountCoils]

theorem length_flatMap_regBytes {α : Type} (g : α → Int) (xs : List α) :
    (xs.flatMap (fun x => regBytes (g x))).length = byteCountRegs xs.length := by
  rw [List.length_flatMap]
  simp only [length_regBytes, List.map_const', List.sum_replicate, smul_eq_mul, byteCountRegs, Nat.mul_comm]

/-- A byte count that fits its field is the number in the field. -/
theorem toNat_ofInt_of_fitsU8 {n : Nat} (h : fitsU8 n = true) : (BitVec.ofInt 8 n).toNat = n := by
  rw [fitsU8_iff] at h
  rw [BitVec.ofInt_natCast, BitVec.toNat_ofNat]
  omega

theorem readRequest_isPdu {fc : Byte} {limit a q : Int} {pdu : List Byte} (h : readRequest fc limit a q = .ok pdu) :
    IsPdu .read 0 fc pdu := by
  rw [readRequest_eq] at h
  split_ifs at h
  cases h
  exact ⟨rfl, rfl, nofun⟩

theorem writeCoilRequest_isPdu {a : Int} {c : CoilIn} {pdu : List Byte} (h : writeCoilRequest a c = .ok pdu) :
    IsPdu .wsingle 0 fcWriteSingleCoil pdu := by
  rw [writeCoilRequest_eq] at h
  split_ifs at h <;> cases h <;> exact ⟨rfl, rfl, nofun⟩

theorem writeRegisterRequest_isPdu {a v : Int} {signed : Bool} {pdu : List Byte}
    (h : writeRegisterRequest a v signed = .ok pdu) : IsPdu .wsingle 0 fcWriteSingleRegister pdu := by
  rw [writeRegisterRequest_eq] at h
  split_ifs at h
  cases h
  exact ⟨rfl, rfl, nofun⟩

/-- The layout of the formats with a byte count: code, fields, byte count, counted bytes. -/
theorem isPdu_of_count {f : PduFormat} {n count : Nat} (code : Byte) (fields : List Byte) {bytes : List Byte}
    (hf : countOffset f = some (fields.length + 1)) (hlen : formatLength n f = fields.length + 2 + count)
    (hcount : fitsU8 count = true) (hbytes : bytes.length = count) :
    IsPdu f n code ([code] ++ fields ++ [BitVec.ofInt 8 count] ++ bytes) := by
  have hlength : ([code] ++ fields ++ [BitVec.ofInt 8 count] ++ bytes).length = fields.length + 2 + count := by
    simp only [List.length_append, List.length_singleton, hbytes]
    omega
  refine ⟨rfl, hlength.trans hlen.symm, fun k hk => ?_⟩
  obtain rfl : fields.length + 1 = k := Option.some.inj (hf.symm.trans hk)
  have hbyte : ([code] ++ fields ++ [BitVec.ofInt 8 count] ++ bytes)[fields.length + 1]? =
      some (BitVec.ofInt 8 count) := by simp
  rw [hlength, hbyte, Option.map_some, toNat_ofInt_of_fitsU8 hcount]

theorem writeCoilsRequest_isPdu {align : ShortAlign} {a : Int} {vs : List BitIn} {pdu : List Byte}
    (h : writeCoilsRequest align a vs = .ok pdu) : IsPdu .wmc vs.length fcWriteMultipleCoils pdu := by
  rw [writeCoilsRequest_eq] at h
  split_ifs at h with hn
  cases h
  have hcount : fitsU8 (byteCountCoils vs.length) = true := by
    have := length_le_of_inRange hn
    unfold maxWriteCoils at this
    rw [fitsU8_byteCountCoils, decide_eq_true_eq]
    omega
  exact isPdu_of_count _ (regBytes a ++ regBytes vs.length) rfl rfl hcount (by rw [length_packBits, List.length_map])

theorem writeRegistersRequest_isPdu {a : Int} {vs : List Int} {signed : Bool} {pdu : List Byte}
    (h : writeRegistersRequest a vs signed = .ok pdu) : IsPdu .wmr vs.length fcWriteMultipleRegisters pdu := by
  rw [writeRegistersRequest_eq] at h
  split_ifs at h with hn
  cases h
  have hcount : fitsU8 (byteCountRegs vs.length) = true :=
    fitsU8_byteCountRegs ((length_le_of_inRange hn).trans (by decide))
  exact isPdu_of_count _ (regBytes a ++ regBytes vs.length) rfl rfl hcount (length_flatMap_regBytes id vs)

theorem readBitsResponse_isPdu {fc : Byte} {align : ShortAlign} {vs : List BitIn} {pdu : List Byte}
    (h : readBitsResponse fc align vs = .ok pdu) : IsPdu .rbits vs.length fc pdu := by
  rw [readBitsResponse_eq] at h
  split_ifs at h with hn
  cases h
  have hcount : fitsU8 (byteCountCoils vs.length) = true := by rw [fitsU8_byteCountCoils, decide_eq_true hn]
  exact isPdu_of_count _ [] rfl rfl hcount (by rw [length_packBits, List.length_map])

theorem readRegsResponse_isPdu {fc : Byte} {vs : List Int} {sg : Signedness} {pdu : List Byte}
    (h : readRegsResponse fc vs sg = .ok pdu) : IsPdu .rregs vs.length fc pdu := by
  rw [readRegsResponse_eq] at h
  split_ifs at h with hn hsg
  cases h
  have hcount : fitsU8 (byteCountRegs vs.length) = true := fitsU8_byteCountRegs (length_le_of_inRange hn)
  refine isPdu_of_count _ [] rfl rfl hcount ?_
  rw [length_flatMap_regBytes, List.length_zip, signFlags_length _ _ hsg, Nat.min_self]

theorem echoValueResponse_isPdu {fc : Byte} {a : Int} {echo : List Byte} {pdu : List Byte}
    (h : echoValueResponse fc a echo = .ok pdu) : IsPdu .echoV 0 fc pdu := by
  rw [echoValueResponse_eq] at h
  split_ifs at h with ha hecho
  cases h
  refine ⟨rfl, ?_, nofun⟩
  rw [List.length_append, List.length_take_of_le hecho]
  rfl

theorem echoQuantityResponse_isPdu {fc : Byte} {a q : Int} {pdu : List Byte}
    (h : echoQuantityResponse fc a q = .ok pdu) : IsPdu .echoQ 0 fc pdu := by
  rw [echoQuantityResponse_eq] at h
  split_ifs at h
  cases h
  exact ⟨rfl, rfl, nofun⟩

theorem exceptionPdu_isPdu {fc code : Int} {pdu : List Byte} (h : exceptionPdu fc code = .ok pdu) :
    IsPdu .exc 0 (BitVec.ofInt 8 fc ||| errorBias) pdu := by
  rw [exceptionPdu_eq] at h
  split_ifs at h
  cases h
  exact ⟨rfl, rfl, nofun⟩

/-- Byte 0 of the PDU of an instruction: the selector of its word (R61), and for EXC the failed function code with bit 7 set. -/
def pduCode : Instr → Byte
  | .exc fc _ => BitVec.ofInt 8 fc ||| errorBias
  | i => i.op.sel

theorem toResult_bytes_eq_iff {r : Except ErrorCode (List Byte)} {bs : List Byte} :
    toResult .bytes r = .bytes bs ↔ r = .ok bs := by
  cases r <;> simp

/-- Every byte sequence an operation with a format answers is a PDU of that format. -/
theorem answerOf_isPdu {build : Config} {i : Instr} {pdu : List Byte} {f : PduFormat} (hf : pduFormat i.op = some f)
    (h : answerOf build i = .bytes pdu) : IsPdu f (elementCount i) (pduCode i) pdu := by
  cases i
  case val | f2b => cases h
  case pack | b2f | i2b => cases hf
  all_goals
    cases hf
    have hok := toResult_bytes_eq_iff.mp h
  case reqRc | reqRdi | reqRhr | reqRir => exact readRequest_isPdu hok
  case reqWsc => exact writeCoilRequest_isPdu hok
  case reqWsr => exact writeRegisterRequest_isPdu hok
  case reqWmc => exact writeCoilsRequest_isPdu hok
  case reqWmr => exact writeRegistersRequest_isPdu hok
  case rspRc | rspRdi => exact readBitsResponse_isPdu hok
  case rspRhr | rspRir => exact readRegsResponse_isPdu hok
  case rspWsc | rspWsr => exact echoValueResponse_isPdu hok
  case rspWmc | rspWmr => exact echoQuantityResponse_isPdu hok
  case exc => exact exceptionPdu_isPdu hok

theorem exec_isPdu {i : Instr} {s : State} {pdu : List Byte} {f : PduFormat} (hf : pduFormat i.op = some f)
    (h : exec i s = .next (answered s (.bytes pdu))) : IsPdu f (elementCount i) (pduCode i) pdu := by
  rw [exec_eq_answered] at h
  have houtbox := congrArg State.outbox (Host.Outcome.next.inj h)
  simp only [answered, List.append_cancel_left_eq, List.cons.injEq, Response.mk.injEq, true_and, and_true] at houtbox
  exact answerOf_isPdu hf houtbox

/-- The units 0x01 and 0x02 select by the eight wire function codes (R61). -/
theorem sel_mem_functionCodes {op : Op} (h : op.unit = 0x01 ∨ op.unit = 0x02) : op.sel ∈ functionCodes := by
  revert h
  cases op <;> decide

theorem ne_exc_of_unit {op : Op} (h : op.unit = 0x01 ∨ op.unit = 0x02) : op ≠ .exc := by
  rintro rfl
  exact absurd h (by decide)

theorem pduFormat_of_unit {op : Op} (h : op.unit = 0x01 ∨ op.unit = 0x02) : ∃ f, pduFormat op = some f := by
  rw [← Option.isSome_iff_exists]
  revert h
  cases op <;> decide

theorem pduCode_of_ne_exc {i : Instr} (h : i.op ≠ .exc) : pduCode i = i.op.sel := by
  cases i
  case exc => exact absurd rfl h
  all_goals rfl

theorem pduCode_of_exc {i : Instr} (h : i.op = .exc) : ∃ b, pduCode i = b ||| errorBias := by
  cases i
  case exc fc code => exact ⟨_, rfl⟩
  all_goals cases h

/-- What a request or a response encoder returns is a PDU that begins with the selector of its word (R61). -/
theorem exec_isPdu_of_unit {i : Instr} {s : State} {pdu : List Byte} (hunit : i.op.unit = 0x01 ∨ i.op.unit = 0x02)
    (h : exec i s = .next (answered s (.bytes pdu))) :
    ∃ f, pduFormat i.op = some f ∧ IsPdu f (elementCount i) i.op.sel pdu := by
  obtain ⟨f, hf⟩ := pduFormat_of_unit hunit
  exact ⟨f, hf, pduCode_of_ne_exc (ne_exc_of_unit hunit) ▸ exec_isPdu hf h⟩

/-- The or of R240 sets bit 7. -/
theorem getLsbD_or_errorBias (b : Byte) : (b ||| errorBias).getLsbD 7 = true := by
  rw [BitVec.getLsbD_or, Bool.or_eq_true]
  exact .inr (by decide)

theorem IsPdu.eq_cons {f : PduFormat} {n : Nat} {code : Byte} {pdu : List Byte} (h : IsPdu f n code pdu) :
    ∃ rest, pdu = code :: rest :=
  List.head?_eq_some_iff.mp h.head

/-- The receiver tells a request from its code: five bytes, or the count in byte 5 (R73). -/
theorem request_received {op : Op} {f : PduFormat} {n : Nat} {pdu : List Byte} (hunit : op.unit = 0x01)
    (hf : pduFormat op = some f) (h : IsPdu f n op.sel pdu) :
    pduIsException pdu = false ∧ pduLength .request pdu = some pdu.length := by
  obtain ⟨rest, rfl⟩ := h.eq_cons
  cases op
  case reqRc | reqRdi | reqRhr | reqRir | reqWsc | reqWsr =>
    cases hf
    exact ⟨rfl, congrArg some h.length.symm⟩
  case reqWmc | reqWmr =>
    cases hf
    exact ⟨rfl, h.count 5 rfl⟩
  all_goals exact absurd hunit (by decide)

/-- The receiver tells a response from its code: the count in byte 1, or five bytes (R73). -/
theorem response_received {op : Op} {f : PduFormat} {n : Nat} {pdu : List Byte} (hunit : op.unit = 0x02)
    (hf : pduFormat op = some f) (h : IsPdu f n op.sel pdu) :
    pduIsException pdu = false ∧ pduLength .response pdu = some pdu.length := by
  obtain ⟨rest, rfl⟩ := h.eq_cons
  cases op
  case rspRc | rspRdi | rspRhr | rspRir =>
    cases hf
    exact ⟨rfl, h.count 1 rfl⟩
  case rspWsc | rspWsr | rspWmc | rspWmr =>
    cases hf
    exact ⟨rfl, congrArg some h.length.symm⟩
  all_goals exact absurd hunit (by decide)

/-- The receiver tells an exception PDU, in either direction, from bit 7 of its code: two bytes (R73). -/
theorem exception_received {n : Nat} {b : Byte} {pdu : List Byte} (dir : Direction)
    (h : IsPdu .exc n (b ||| errorBias) pdu) :
    pduIsException pdu = true ∧ pduLength dir pdu = some pdu.length := by
  obtain ⟨rest, rfl⟩ := h.eq_cons
  refine ⟨getLsbD_or_errorBias b, ?_⟩
  simp only [pduLength, getLsbD_or_errorBias, if_true]
  exact congrArg some h.length.symm

end Sys2Proof.Machine
end

section
/-! PROOFS. The PDUs of 30_encoding.md sections 1 and 3: O3, O42, O43. -/

namespace Sys2Proof.Proofs

open Sys2Proof.Machine Sys2Proof.Stated

/-- Settles O42: what an operation with a format returns is a PDU of that format. -/
theorem pduLengthsFollowTheFormats : Obligations.PduLengthsFollowTheFormats := by
  unfold Obligations.PduLengthsFollowTheFormats
  exact fun _ _ _ _ hf hexec => (exec_isPdu hf hexec).length

/-- Settles O43: the receiver needs the first byte and the byte count, which every PDU of the format holds. -/
theorem receiverTellsKindAndLength : Obligations.ReceiverTellsKindAndLength := by
  unfold Obligations.ReceiverTellsKindAndLength
  intro i s pdu hexec
  constructor
  · intro hrequest
    obtain ⟨f, hf, hpdu⟩ := exec_isPdu_of_unit (.inl hrequest) hexec
    exact request_received hrequest hf hpdu
  · intro hreply
    by_cases hexc : i.op = .exc
    · have hformat : pduFormat i.op = some .exc := by rw [hexc]; rfl
      have hpdu := exec_isPdu hformat hexec
      obtain ⟨fc, hcode⟩ := pduCode_of_exc hexc
      rw [hcode] at hpdu
      have ⟨hkind, hlength⟩ := exception_received .response hpdu
      exact ⟨iff_of_true hkind hexc, hlength⟩
    · have hunit := hreply.resolve_right hexc
      obtain ⟨f, hf, hpdu⟩ := exec_isPdu_of_unit (.inr hunit) hexec
      have ⟨hkind, hlength⟩ := response_received hunit hf hpdu
      exact ⟨iff_of_false (Bool.eq_false_iff.mp hkind) hexc, hlength⟩

/-- Settles O3: a row is an operation with its word, whose low byte is the selector that a request or response PDU begins with. -/
theorem wireFunctionCodeIsTheSelector : Obligations.WireFunctionCodeIsTheSelector := by
  unfold Obligations.WireFunctionCodeIsTheSelector
  constructor
  · intro row hrow o
    obtain ⟨op, rfl⟩ := mem_commandTable_iff.mp hrow
    exact decode_cmd op o
  · intro row hrow hunit
    obtain ⟨op, rfl⟩ := mem_commandTable_iff.mp hrow
    have hsel : op.cmd.extractLsb' 0 8 = op.sel := cmdSel_cmd op
    have hunit : op.unit = 0x01 ∨ op.unit = 0x02 := cmdUnit_cmd op ▸ hunit
    refine ⟨hsel ▸ sel_mem_functionCodes hunit, fun o s pdu hexec => ?_⟩
    obtain ⟨f, -, hpdu⟩ := exec_isPdu_of_unit (by rwa [op_instr]) hexec
    rw [hsel, hpdu.head, op_instr]

end Sys2Proof.Proofs
end

section
/-! SUPPORT. The host script (30_encoding.md R75; log entry 11): its variables, the transaction it issues, and one equation a line of
a running script. -/

namespace Sys2Proof.Machine

open Sys2Proof.Stated

theorem lookupVar_bindVar_same (k : Nat) (r : Result) (vars : List (Nat × Result)) :
    lookupVar k (bindVar k r vars) = some r := by
  simp [lookupVar, bindVar]

theorem lookupVar_bindVar_of_ne {j k : Nat} (r : Result) (vars : List (Nat × Result)) (h : j ≠ k) :
    lookupVar j (bindVar k r vars) = lookupVar j vars := by
  have hfilter : (vars.filter (fun p => p.1 != k)).find? (fun p => p.1 == j) = vars.find? (fun p => p.1 == j) := by
    rw [List.find?_filter]
    congr 1
    funext p
    by_cases hp : p.1 = j <;> simp [hp, h]
  rw [lookupVar, bindVar, List.find?_cons_of_neg (by simpa using h.symm), hfilter, lookupVar]

/-- An operand that is a variable holding an `Err` leaves the operation without operands. -/
theorem argValues_of_err {vars : List (Nat × Result)} {args : List Arg} {j : Nat} {e : ErrorCode}
    (hmem : Arg.var j ∈ args) (herr : lookupVar j vars = some (.err e)) : argValues vars args = none := by
  induction args with
  | nil => cases hmem
  | cons arg args ih =>
    rcases List.mem_cons.mp hmem with rfl | htail
    · simp [argValues, herr, valueOf]
    · cases arg <;> simp [argValues, ih htail]

/-- The transaction is served at once, and its result is the last one returned. -/
theorem transact_cmd (host : Nat) (op : Op) (o : OperandRecord) (m : State) :
    transact host op.cmd o m =
      some (answered (serving m host m.inbox) (answerOf m.build (op.instr o)), answerOf m.build (op.instr o)) := by
  have hresult : transactionResult m.build { host := host, cmd := op.cmd, operands := o } =
      answerOf m.build (op.instr o) := by
    rw [transactionResult, decode_cmd]
  rw [transact, step_issue_eq (present_inbox m _), present_build, hresult]
  simp only [respond_outbox, List.getLast?_concat, Option.map_some]
  rfl

theorem scriptStep_running {script : List ScriptLine} {h : ScriptHost} {line : ScriptLine}
    (hrun : h.status = .running) (hline : script[h.hpc]? = some line) : scriptStep script h = runLine h line := by
  simp only [scriptStep, hrun, hline]

theorem branch_eq (h : ScriptHost) (taken : Bool) (n : Nat) :
    h.branch taken n = { h with hpc := if taken then n else h.hpc + 1 } := by
  cases taken <;> rfl

theorem runLine_ifTrue {h : ScriptHost} {k : Nat} {r : Result} (n : Nat) (hr : lookupVar k h.vars = some r) :
    runLine h (.ifTrue k n) = { h with hpc := if r = .verdict true then n else h.hpc + 1 } := by
  simp only [runLine, hr, branch_eq, beq_iff_eq]

theorem runLine_ifErr {h : ScriptHost} {k : Nat} {r : Result} (n : Nat) (hr : lookupVar k h.vars = some r) :
    runLine h (.ifErr k n) = { h with hpc := if isOk r then h.hpc + 1 else n } := by
  simp only [runLine, hr]
  cases r <;> rfl

theorem runLine_slice {h : ScriptHost} {j lo hi : Nat} {bs : List Byte} (k : Nat)
    (hbs : lookupVar j h.vars = some (.bytes bs)) (hlo : lo ≤ hi) (hhi : hi ≤ bs.length) :
    runLine h (.slice k j lo hi) =
      { h with vars := bindVar k (.bytes ((bs.take hi).drop lo)) h.vars, hpc := h.hpc + 1 } := by
  simp only [runLine, hbs, if_pos (And.intro hlo hhi), List.drop_take]

theorem runLine_issue {h : ScriptHost} {op : Op} {args : List Arg} {ls : List Literal} {o : OperandRecord} (k : Nat)
    (hargs : argValues h.vars args = some ls) (ho : assembleRecord op ls = some o) :
    runLine h (.issue k op args) =
      { h with
        machine := answered (serving h.machine h.host h.machine.inbox) (answerOf h.machine.build (op.instr o))
        vars := bindVar k (answerOf h.machine.build (op.instr o)) h.vars
        hpc := h.hpc + 1 } := by
  simp only [runLine, hargs, Option.bind_some, ho, transact_cmd]

theorem runLine_issue_of_no_values {h : ScriptHost} {args : List Arg} (k : Nat) (op : Op)
    (hargs : argValues h.vars args = none) : runLine h (.issue k op args) = { h with status := .stopped } := by
  simp only [runLine, hargs, Option.bind_none]
  rfl

end Sys2Proof.Machine
end

section
/-! PROOFS. The host script of 30_encoding.md section 4: O49. -/

namespace Sys2Proof.Proofs

open Sys2Proof.Machine Sys2Proof.Stated

/-- Settles O49: a running script runs its line, and each line does what its equation says. -/
theorem hostScriptLinesFollowTheirRules : Obligations.HostScriptLinesFollowTheirRules := by
  unfold Obligations.HostScriptLinesFollowTheirRules
  refine ⟨fun _ _ => rfl, fun k r vars => ⟨lookupVar_bindVar_same k r vars, fun _ => lookupVar_bindVar_of_ne r vars⟩, ?_⟩
  intro script h hrun
  have hstep {line : ScriptLine} (hline : script[h.hpc]? = some line) := scriptStep_running hrun hline
  refine ⟨fun n hline => hstep hline, fun hline => hstep hline,
    fun k n r hline hr => (hstep hline).trans (runLine_ifTrue n hr),
    fun k n r hline hr => (hstep hline).trans (runLine_ifErr n hr),
    fun k j lo hi bs hline hbs hlo hhi => (hstep hline).trans (runLine_slice k hbs hlo hhi),
    fun k op args hline => ⟨fun ls o hargs ho => ?_, ?_⟩⟩
  · exact ⟨answerOf h.machine.build (op.instr o), exec_eq_answered _ _, (hstep hline).trans (runLine_issue k hargs ho)⟩
  · rintro ⟨j, e, hmem, herr⟩
    exact (hstep hline).trans (runLine_issue_of_no_values k op (argValues_of_err hmem herr))

end Sys2Proof.Proofs
end

section
/-! SUPPORT. The result an execution returns, as an equivalence, and the checks of Sys2Proof/WellFormed.lean as the conditions the
statements name. -/

namespace Sys2Proof.Machine

open Sys2Proof.Stated

theorem answered_inj {s : State} {r r' : Result} : answered s r = answered s r' ↔ r = r' := by
  simp [answered]

theorem exec_eq_answered_iff {i : Instr} {s : State} {r : Result} :
    exec i s = .next (answered s r) ↔ answerOf s.build i = r := by
  rw [exec_eq_answered, Host.Outcome.next.injEq, answered_inj]

/-- An instruction whose pseudocode has a known outcome returns that outcome's result. -/
theorem exec_of_answer {i : Instr} {s : State} {r : Result} (h : answerOf s.build i = r) :
    exec i s = .next (answered s r) :=
  exec_eq_answered_iff.mpr h

theorem fitsU16_iff_fits16 {v : Int} : fitsU16 v = true ↔ Fits16 v := fitsU16_iff

theorem isBit_iff {e : BitIn} : e.isBit = true ↔ IsBit e := by
  cases e <;> simp [BitIn.isBit, IsBit]

theorem all_isBit_iff {vs : List BitIn} : vs.all BitIn.isBit = true ↔ ∀ e ∈ vs, IsBit e := by
  simp only [List.all_eq_true, isBit_iff]

theorem all_fitsReg_iff {signed : Bool} {vs : List Int} :
    vs.all (fitsReg signed) = true ↔ ∀ v ∈ vs, RegFits signed v := by
  simp only [List.all_eq_true, fitsReg_iff_regFits]

theorem isCoil_iff {c : CoilIn} : c.isCoil = true ↔ (∃ b, c = .bool b) ∨ c = .int 0x0000 ∨ c = .int 0xFF00 := by
  cases c <;> simp [CoilIn.isCoil]

theorem not_inRange_iff {lo hi v : Int} : ¬ inRange lo hi v = true ↔ v < lo ∨ hi < v := by
  rw [inRange_iff]
  omega

theorem inRange_length_iff {limit n : Nat} : inRange 1 limit n = true ↔ 1 ≤ n ∧ n ≤ limit := by
  rw [inRange_iff]
  omega

theorem inRange_maxWriteCoils_iff {n : Nat} : inRange 1 maxWriteCoils n = true ↔ 1 ≤ n ∧ n ≤ 1968 :=
  inRange_length_iff (limit := 1968)

theorem inRange_maxWriteRegs_iff {n : Nat} : inRange 1 maxWriteRegs n = true ↔ 1 ≤ n ∧ n ≤ 123 :=
  inRange_length_iff (limit := 123)

theorem ofInt_natCast_eq_byteOf (n : Nat) : BitVec.ofInt 8 n = byteOf n := BitVec.ofInt_natCast 8 n

end Sys2Proof.Machine
end

section
/-! SUPPORT. The requests (40_request_encoder.md): the outcome of each pseudocode under the conditions of its rule, in the order of the
rule's checks. -/

namespace Sys2Proof.Machine

open Sys2Proof.Stated

/-- The rule of a read request, from the pseudocode R101 to R104 share; the limit of each is in the range of a 16-bit field. -/
theorem readRequest_follows_rule (op : Op) {mk : Int → Int → Instr} {fc : Byte} {limit : Int} (hlimit : limit ≤ 65535)
    (hop : ∀ o, op.instr o = mk o.address o.quantity)
    (hanswer : ∀ build a q, answerOf build (mk a q) = toResult .bytes (readRequest fc limit a q)) :
    ReadRequestRule mk op.cmd fc limit := by
  refine ⟨fun o => by rw [decode_cmd, hop], fun s a q => ⟨fun h1 hq ha => ?_, fun hq => ?_, fun h1 hq ha => ?_⟩⟩
  all_goals
    apply exec_of_answer
    rw [hanswer, readRequest_eq]
  · have hn : inRange 1 limit q = true := inRange_iff.mpr ⟨h1, hq⟩
    rw [if_pos hn, if_pos (by rw [fitsU16_iff_fits16.mpr ha, fitsU16_of_inRange hn hlimit]; rfl), regBytes_eq_hi_lo,
      regBytes_eq_hi_lo]
    rfl
  · rw [if_neg (not_inRange_iff.mpr hq), toResult_error]
  · rw [if_pos (inRange_iff.mpr ⟨h1, hq⟩), Bool.eq_false_iff.mpr (mt fitsU16_iff_fits16.mp ha)]
    rfl

section

variable {a : Int} {c : CoilIn}

theorem writeCoilRequest_on (ha : Fits16 a) (hc : c = .bool true ∨ c = .int 0xFF00) :
    writeCoilRequest a c = .ok [0x05, hi a, lo a, 0xFF, 0x00] := by
  have hcoil : c.isCoil = true := isCoil_iff.mpr (hc.imp (fun h => ⟨true, h⟩) .inr)
  rw [writeCoilRequest_eq, if_pos hcoil, if_pos (fitsU16_iff_fits16.mpr ha), if_pos hc, regBytes_eq_hi_lo]
  rfl

theorem writeCoilRequest_off (ha : Fits16 a) (hc : c = .bool false ∨ c = .int 0x0000) :
    writeCoilRequest a c = .ok [0x05, hi a, lo a, 0x00, 0x00] := by
  have hcoil : c.isCoil = true := isCoil_iff.mpr (hc.imp (fun h => ⟨false, h⟩) .inl)
  have hoff : ¬ (c = .bool true ∨ c = .int 0xFF00) := by rcases hc with rfl | rfl <;> decide
  rw [writeCoilRequest_eq, if_pos hcoil, if_pos (fitsU16_iff_fits16.mpr ha), if_neg hoff, regBytes_eq_hi_lo]
  rfl

theorem writeCoilRequest_illegalValue {v : Int} (hoff : v ≠ 0x0000) (hon : v ≠ 0xFF00) :
    writeCoilRequest a (.int v) = .error .illegalValue := by
  rw [writeCoilRequest_eq, if_neg (by simp [isCoil_iff, hoff, hon])]

theorem writeCoilRequest_fieldOverflow (ha : ¬ Fits16 a)
    (hc : (∃ b, c = .bool b) ∨ c = .int 0x0000 ∨ c = .int 0xFF00) :
    writeCoilRequest a c = .error .fieldOverflow := by
  rw [writeCoilRequest_eq, if_pos (isCoil_iff.mpr hc), if_neg (mt fitsU16_iff_fits16.mp ha)]

end

section

variable {a v : Int} {signed : Bool}

theorem fits_address_and_value_iff : (fitsU16 a && fitsReg signed v) = true ↔ Fits16 a ∧ RegFits signed v := by
  rw [Bool.and_eq_true, fitsU16_iff_fits16, fitsReg_iff_regFits]

theorem writeRegisterRequest_ok (ha : Fits16 a) (hv : RegFits signed v) :
    writeRegisterRequest a v signed = .ok [0x06, hi a, lo a, hi v, lo v] := by
  rw [writeRegisterRequest_eq, if_pos (fits_address_and_value_iff.mpr ⟨ha, hv⟩), regBytes_eq_hi_lo, regBytes_eq_hi_lo]
  rfl

theorem writeRegisterRequest_fieldOverflow (h : ¬ Fits16 a ∨ ¬ RegFits signed v) :
    writeRegisterRequest a v signed = .error .fieldOverflow := by
  rw [writeRegisterRequest_eq, if_neg (mt fits_address_and_value_iff.mp (not_and_or.mpr h))]

end

section

variable {align : ShortAlign} {a : Int} {vs : List BitIn}

theorem pack_ok (hbits : ∀ e ∈ vs, IsBit e) : pack align vs = .ok (packBits align (vs.map bitSense)) := by
  rw [pack_eq, if_pos (all_isBit_iff.mpr hbits)]

theorem writeCoilsRequest_ok (hmin : 1 ≤ vs.length) (hmax : vs.length ≤ 1968) (ha : Fits16 a) (hbits : ∀ e ∈ vs, IsBit e) :
    writeCoilsRequest align a vs =
      .ok ([0x0F, hi a, lo a, hi vs.length, lo vs.length, byteOf ((vs.length + 7) / 8)] ++
        packBits align (vs.map bitSense)) := by
  rw [writeCoilsRequest_eq, if_pos (inRange_maxWriteCoils_iff.mpr ⟨hmin, hmax⟩), if_pos (fitsU16_iff_fits16.mpr ha),
    if_pos (all_isBit_iff.mpr hbits), regBytes_eq_hi_lo, regBytes_eq_hi_lo, ofInt_natCast_eq_byteOf, byteCountCoils_eq]
  rfl

theorem writeCoilsRequest_invalidQuantity (h : vs.length < 1 ∨ 1968 < vs.length) :
    writeCoilsRequest align a vs = .error .invalidQuantity := by
  rw [writeCoilsRequest_eq, if_neg (by rw [inRange_maxWriteCoils_iff]; omega)]

theorem writeCoilsRequest_fieldOverflow (hmin : 1 ≤ vs.length) (hmax : vs.length ≤ 1968) (ha : ¬ Fits16 a) :
    writeCoilsRequest align a vs = .error .fieldOverflow := by
  rw [writeCoilsRequest_eq, if_pos (inRange_maxWriteCoils_iff.mpr ⟨hmin, hmax⟩), if_neg (mt fitsU16_iff_fits16.mp ha)]

theorem writeCoilsRequest_notABit (hmin : 1 ≤ vs.length) (hmax : vs.length ≤ 1968) (ha : Fits16 a)
    (hbad : ∃ e ∈ vs, ¬ IsBit e) : writeCoilsRequest align a vs = .error .notABit := by
  obtain ⟨e, he, hne⟩ := hbad
  have hbits : ¬ vs.all BitIn.isBit = true := fun h => hne (all_isBit_iff.mp h e he)
  rw [writeCoilsRequest_eq, if_pos (inRange_maxWriteCoils_iff.mpr ⟨hmin, hmax⟩), if_pos (fitsU16_iff_fits16.mpr ha), if_neg hbits]

end

section

variable {a : Int} {vs : List Int} {signed : Bool}

theorem fits_address_and_values_iff :
    (fitsU16 a && vs.all (fitsReg signed)) = true ↔ Fits16 a ∧ ∀ v ∈ vs, RegFits signed v := by
  rw [Bool.and_eq_true, fitsU16_iff_fits16, all_fitsReg_iff]

theorem writeRegistersRequest_ok (hmin : 1 ≤ vs.length) (hmax : vs.length ≤ 123) (ha : Fits16 a)
    (hvs : ∀ v ∈ vs, RegFits signed v) :
    writeRegistersRequest a vs signed =
      .ok ([0x10, hi a, lo a, hi vs.length, lo vs.length, byteOf (2 * vs.length)] ++
        vs.flatMap (fun v => [hi v, lo v])) := by
  rw [writeRegistersRequest_eq, if_pos (inRange_maxWriteRegs_iff.mpr ⟨hmin, hmax⟩),
    if_pos (fits_address_and_values_iff.mpr ⟨ha, hvs⟩), ofInt_natCast_eq_byteOf, funext regBytes_eq_hi_lo]
  rfl

theorem writeRegistersRequest_invalidQuantity (h : vs.length < 1 ∨ 123 < vs.length) :
    writeRegistersRequest a vs signed = .error .invalidQuantity := by
  rw [writeRegistersRequest_eq, if_neg (by rw [inRange_maxWriteRegs_iff]; omega)]

theorem writeRegistersRequest_fieldOverflow (hmin : 1 ≤ vs.length) (hmax : vs.length ≤ 123)
    (hbad : ¬ Fits16 a ∨ ∃ v ∈ vs, ¬ RegFits signed v) : writeRegistersRequest a vs signed = .error .fieldOverflow := by
  have hfits : ¬ (Fits16 a ∧ ∀ v ∈ vs, RegFits signed v) := by
    rintro ⟨ha, hvs⟩
    obtain hna | ⟨v, hv, hnv⟩ := hbad
    · exact hna ha
    · exact hnv (hvs v hv)
  rw [writeRegistersRequest_eq, if_pos (inRange_maxWriteRegs_iff.mpr ⟨hmin, hmax⟩),
    if_neg (mt fits_address_and_values_iff.mp hfits)]

end

end Sys2Proof.Machine
end

section
/-! PROOFS. The requests of 40_request_encoder.md, rule by rule: O9, O10, O11, O12, O13. -/

namespace Sys2Proof.Proofs

open Sys2Proof.Machine Sys2Proof.Stated

/-- Settles O9: the four read requests are one pseudocode under four codes and two limits. -/
theorem readRequestsFollowTheirRules : Obligations.ReadRequestsFollowTheirRules := by
  unfold Obligations.ReadRequestsFollowTheirRules
  exact ⟨readRequest_follows_rule .reqRc (by decide) (fun _ => rfl) (fun _ _ _ => rfl),
    readRequest_follows_rule .reqRdi (by decide) (fun _ => rfl) (fun _ _ _ => rfl),
    readRequest_follows_rule .reqRhr (by decide) (fun _ => rfl) (fun _ _ _ => rfl),
    readRequest_follows_rule .reqRir (by decide) (fun _ => rfl) (fun _ _ _ => rfl)⟩

/-- Settles O10: the coil value is checked first, and both spellings of a value give its two bytes. -/
theorem writeSingleCoilRequestFollowsItsRule : Obligations.WriteSingleCoilRequestFollowsItsRule := by
  unfold Obligations.WriteSingleCoilRequestFollowsItsRule
  refine ⟨decode_cmd .reqWsc, fun s a c => ⟨fun ha hc => ?_, fun ha hc => ?_, ?_, fun ha hc => ?_⟩⟩
  · exact exec_of_answer (congrArg (toResult .bytes) (writeCoilRequest_on ha hc))
  · exact exec_of_answer (congrArg (toResult .bytes) (writeCoilRequest_off ha hc))
  · rintro v rfl hoff hon
    exact exec_of_answer (congrArg (toResult .bytes) (writeCoilRequest_illegalValue hoff hon))
  · exact exec_of_answer (congrArg (toResult .bytes) (writeCoilRequest_fieldOverflow ha hc))

/-- Settles O11: the address and the value are checked, each against its field, and both failures give the same error. -/
theorem writeSingleRegisterRequestFollowsItsRule : Obligations.WriteSingleRegisterRequestFollowsItsRule := by
  unfold Obligations.WriteSingleRegisterRequestFollowsItsRule
  refine ⟨decode_cmd .reqWsr, fun s a v signed => ⟨fun ha hv => ?_, fun h => ?_⟩⟩
  · exact exec_of_answer (congrArg (toResult .bytes) (writeRegisterRequest_ok ha hv))
  · exact exec_of_answer (congrArg (toResult .bytes) (writeRegisterRequest_fieldOverflow h))

/-- Settles O12: the request and PACK pack the same values under the build of the same state. -/
theorem writeMultipleCoilsRequestFollowsItsRule : Obligations.WriteMultipleCoilsRequestFollowsItsRule := by
  unfold Obligations.WriteMultipleCoilsRequestFollowsItsRule
  refine ⟨decode_cmd .reqWmc, fun s a vs => ⟨fun hmin hmax ha hbits => ?_, fun h => ?_, fun hmin hmax ha => ?_,
    fun hmin hmax ha hbad => ?_⟩⟩
  · exact ⟨_, exec_of_answer (congrArg (toResult .bytes) (pack_ok hbits)),
      exec_of_answer (congrArg (toResult .bytes) (writeCoilsRequest_ok hmin hmax ha hbits))⟩
  · exact exec_of_answer (congrArg (toResult .bytes) (writeCoilsRequest_invalidQuantity h))
  · exact exec_of_answer (congrArg (toResult .bytes) (writeCoilsRequest_fieldOverflow hmin hmax ha))
  · exact exec_of_answer (congrArg (toResult .bytes) (writeCoilsRequest_notABit hmin hmax ha hbad))

/-- Settles O13: after the number of values, the address and the values are checked, each against its field. -/
theorem writeMultipleRegistersRequestFollowsItsRule : Obligations.WriteMultipleRegistersRequestFollowsItsRule := by
  unfold Obligations.WriteMultipleRegistersRequestFollowsItsRule
  refine ⟨decode_cmd .reqWmr, fun s a vs signed => ⟨fun hmin hmax ha hvs => ?_, fun h => ?_, fun hmin hmax hbad => ?_⟩⟩
  · exact exec_of_answer (congrArg (toResult .bytes) (writeRegistersRequest_ok hmin hmax ha hvs))
  · exact exec_of_answer (congrArg (toResult .bytes) (writeRegistersRequest_invalidQuantity h))
  · exact exec_of_answer (congrArg (toResult .bytes) (writeRegistersRequest_fieldOverflow hmin hmax hbad))

end Sys2Proof.Proofs
end

section
/-! SUPPORT. The quantity of a request (40_request_encoder.md R110): what the pseudocodes that check one have in common. -/

namespace Sys2Proof.Machine

open Sys2Proof.Stated

/-- Two bytes of a PDU that encode a value hold its residue. -/
theorem field16_of_regBytes {pdu : List Byte} {off : Nat} {v : Int}
    (h : [byteAt pdu off, byteAt pdu (off + 1)] = regBytes v) : (field16 pdu off : Int) = v % 65536 := by
  rw [regBytes_eq_hi_lo] at h
  obtain ⟨hhi, hlo, -⟩ := List.cons_eq_cons.mp h |>.imp_right List.cons_eq_cons.mp
  rw [field16, hhi, hlo, Nat.cast_add, Nat.cast_mul]
  exact toNat_hi_lo v

/-- The outcome `r` of a pseudocode that checks the quantity `q` against `limit` first, and then writes it at offset 3. -/
structure ChecksQuantity (limit q : Int) (r : Except ErrorCode (List Byte)) : Prop where
  field : ∀ pdu, r = .ok pdu → (field16 pdu 3 : Int) = q
  invalidQuantity_iff : r = .error .invalidQuantity ↔ q < 1 ∨ limit < q

/-- The shape the pseudocodes share: after the check of the quantity no branch raises its error again. -/
theorem checksQuantity_of_branches {limit q : Int} {r r' : Except ErrorCode (List Byte)} (hlimit : limit ≤ 65535)
    (hr : r = if inRange 1 limit q then r' else .error .invalidQuantity)
    (hfield : ∀ pdu, r' = .ok pdu → [byteAt pdu 3, byteAt pdu 4] = regBytes q) (herr : r' ≠ .error .invalidQuantity) :
    ChecksQuantity limit q r := by
  by_cases hq : inRange 1 limit q = true
  · rw [if_pos hq] at hr
    subst hr
    refine ⟨fun pdu hpdu => ?_, iff_of_false herr (mt not_inRange_iff.mpr (not_not.mpr hq))⟩
    rw [field16_of_regBytes (hfield pdu hpdu)]
    rw [inRange_iff] at hq
    omega
  · rw [if_neg hq] at hr
    subst hr
    exact ⟨nofun, iff_of_true rfl (not_inRange_iff.mp hq)⟩

theorem readRequest_checksQuantity (fc : Byte) {limit : Int} (a q : Int) (hlimit : limit ≤ 65535) :
    ChecksQuantity limit q (readRequest fc limit a q) := by
  refine checksQuantity_of_branches hlimit (readRequest_eq fc limit a q) (fun pdu h => ?_) ?_
  · split_ifs at h
    cases h
    rfl
  · split_ifs <;> nofun

theorem writeCoilsRequest_checksQuantity (align : ShortAlign) (a : Int) (vs : List BitIn) :
    ChecksQuantity maxWriteCoils vs.length (writeCoilsRequest align a vs) := by
  refine checksQuantity_of_branches (by decide) (writeCoilsRequest_eq align a vs) (fun pdu h => ?_) ?_
  · split_ifs at h
    cases h
    rfl
  · split_ifs <;> nofun

theorem writeRegistersRequest_checksQuantity (a : Int) (vs : List Int) (signed : Bool) :
    ChecksQuantity maxWriteRegs vs.length (writeRegistersRequest a vs signed) := by
  refine checksQuantity_of_branches (by decide) (writeRegistersRequest_eq a vs signed) (fun pdu h => ?_) ?_
  · split_ifs at h
    cases h
    rfl
  · split_ifs <;> nofun

/-- Every request with a quantity is one of these pseudocodes. -/
theorem answerOf_checksQuantity (build : Config) {i : Instr} {q limit : Int} (h : requestedQuantity i = some (q, limit)) :
    ∃ r, answerOf build i = toResult .bytes r ∧ ChecksQuantity limit q r := by
  cases i
  case reqRc | reqRdi | reqRhr | reqRir =>
    cases h
    exact ⟨_, rfl, readRequest_checksQuantity _ _ _ (by decide)⟩
  case reqWmc =>
    cases h
    exact ⟨_, rfl, writeCoilsRequest_checksQuantity _ _ _⟩
  case reqWmr =>
    cases h
    exact ⟨_, rfl, writeRegistersRequest_checksQuantity _ _ _⟩
  all_goals cases h

theorem toResult_bytes_eq_err_iff {r : Except ErrorCode (List Byte)} {e : ErrorCode} :
    toResult .bytes r = .err e ↔ r = .error e := by
  cases r <;> simp

end Sys2Proof.Machine
end

section
/-! PROOFS. The sentence of 40_request_encoder.md about the quantity: O14. -/

namespace Sys2Proof.Proofs

open Sys2Proof.Machine Sys2Proof.Stated

/-- Settles O14: a quantity in its range is its own residue, which the field holds, and no other check raises its error. -/
theorem quantityFieldHoldsTheQuantity : Obligations.QuantityFieldHoldsTheQuantity := by
  unfold Obligations.QuantityFieldHoldsTheQuantity
  intro i s q limit hq
  obtain ⟨r, hr, hcheck⟩ := answerOf_checksQuantity s.build hq
  constructor
  · intro pdu hexec
    rw [exec_eq_answered_iff, hr, toResult_bytes_eq_iff] at hexec
    exact hcheck.field pdu hexec
  · rw [exec_eq_answered_iff, hr, toResult_bytes_eq_err_iff]
    exact hcheck.invalidQuantity_iff

end Sys2Proof.Proofs
end

section
/-! SUPPORT. The number a digit string writes (45_numeric_codec.md R254), and how long it is after its leading zeros. -/

namespace Sys2Proof.Machine

open Sys2Proof.Stated

/-- Digits read after the number `v`: each moves it one place up. -/
theorem foldl_digitValue (v : Nat) (cs : List Char) :
    cs.foldl (fun v c => (v <<< 1) ||| digitValue c) v = v * 2 ^ cs.length + binaryValue cs := by
  induction cs generalizing v with
  | nil => simp [binaryValue]
  | cons c cs ih =>
    have hdigit : digitValue c < 2 ^ 1 := by unfold digitValue; split <;> decide
    have hweight : digitValue c * 2 ^ cs.length = if c = '1' then 2 ^ cs.length else 0 := by
      unfold digitValue; split <;> simp
    rw [List.foldl_cons, ih, ← Nat.shiftLeft_add_eq_or_of_lt hdigit, binaryValue, ← hweight, List.length_cons,
      Nat.shiftLeft_eq]
    ring

theorem stringValue_eq_binaryValue (cs : List Char) : stringValue cs = binaryValue cs := by
  rw [stringValue, foldl_digitValue, Nat.zero_mul, Nat.zero_add]

theorem binaryValue_lt (cs : List Char) : binaryValue cs < 2 ^ cs.length := by
  induction cs with
  | nil => decide
  | cons c cs ih =>
    rw [binaryValue, List.length_cons, Nat.pow_succ]
    split <;> omega

/-- A number fits `k` bits exactly if its digits after the leading zeros do. -/
theorem binaryValue_lt_iff {cs : List Char} (hdigits : cs.all isDigit = true) (k : Nat) :
    binaryValue cs < 2 ^ k ↔ (cs.dropWhile (· == '0')).length ≤ k := by
  induction cs with
  | nil => simp [binaryValue]
  | cons c cs ih =>
    rw [List.all_cons, Bool.and_eq_true, isDigit, decide_eq_true_eq] at hdigits
    obtain ⟨rfl | rfl, hcs⟩ := hdigits
    · rw [binaryValue, if_neg (by decide), Nat.zero_add, ih hcs]
      rfl
    · have hlt := binaryValue_lt cs
      have hlead : ('1' :: cs).dropWhile (· == '0') = '1' :: cs := rfl
      rw [hlead, binaryValue, if_pos rfl, List.length_cons]
      constructor
      · intro h
        exact (Nat.pow_lt_pow_iff_right Nat.one_lt_two).mp (by omega)
      · intro h
        have hpow := Nat.pow_le_pow_right Nat.two_pos h
        rw [Nat.pow_succ] at hpow
        omega

/-- The check of R254 is the one R255 words: at most 32 digits after the leading zeros. -/
theorem fitsBits32_iff {cs : List Char} :
    fitsBits32 cs = true ↔ 1 ≤ cs.length ∧ cs.all isDigit = true ∧ stringValue cs < 2 ^ 32 := by
  have hempty : (!cs.isEmpty) = true ↔ 1 ≤ cs.length := by cases cs <;> simp
  have hdigit : (fun c : Char => c == '0' || c == '1') = isDigit := by
    funext c
    rw [isDigit, Bool.decide_or, Bool.beq_eq_decide_eq, Bool.beq_eq_decide_eq]
  rw [fitsBits32, Bool.and_eq_true, Bool.and_eq_true, hempty, hdigit, decide_eq_true_eq, and_assoc]
  refine and_congr_right fun _ => and_congr_right fun hdigits => ?_
  rw [stringValue_eq_binaryValue, binaryValue_lt_iff hdigits]

end Sys2Proof.Machine
end

section
/-! SUPPORT. When the outcome of a pseudocode is an `Ok`: exactly if each of its checks holds. -/

namespace Sys2Proof.Machine

/-- A check stands in the way of an `Ok`. -/
theorem isOk_toResult_ite {α : Type} (mk : α → Result) (check : Prop) [Decidable check] (r : Except ErrorCode α)
    (e : ErrorCode) :
    isOk (toResult mk (if check then r else .error e)) = (decide check && isOk (toResult mk r)) := by
  by_cases h : check <;> simp [h, isOk]

@[simp] theorem isOk_bytes (bs : List Byte) : isOk (.bytes bs) = true := rfl
@[simp] theorem isOk_bits32 (x : Bits32) : isOk (.bits32 x) = true := rfl
@[simp] theorem isOk_digits (cs : List Char) : isOk (.digits cs) = true := rfl

/-- The check of the quantity's field cannot fail after the check of its range. -/
theorem isOk_readRequest (fc : Byte) {limit : Int} (a q : Int) (hlimit : limit ≤ 65535) :
    isOk (toResult .bytes (readRequest fc limit a q)) = (inRange 1 limit q && fitsU16 a) := by
  simp only [readRequest_eq, isOk_toResult_ite, toResult_ok, isOk_bytes, Bool.decide_eq_true, Bool.and_true]
  cases hq : inRange 1 limit q
  · rfl
  · rw [fitsU16_of_inRange hq hlimit, Bool.and_true]

theorem lengthMatches_eq_covers (n : Nat) (sg : Signedness) : lengthMatches n sg = sg.covers n := by
  cases sg with
  | uniform b => rfl
  | perElement fs => exact Bool.beq_eq_decide_eq _ _

theorem zip_signFlags_all_fitsReg (vs : List Int) (sg : Signedness) :
    (vs.zip (signFlags vs.length sg)).all (fun p => fitsReg p.2 p.1) = sg.allFit vs := by
  cases sg with
  | uniform b =>
    rw [signFlags, ← List.map_const', ← List.map_prod_left_eq_zip, all_map_pair_fitsReg, Signedness.allFit]
  | perElement fs => rfl

theorem isOk_readRegsResponse (fc : Byte) (vs : List Int) (sg : Signedness) :
    isOk (toResult .bytes (readRegsResponse fc vs sg)) =
      (inRange 1 maxReadRegs vs.length && sg.covers vs.length && sg.allFit vs) := by
  simp only [readRegsResponse_eq, isOk_toResult_ite, toResult_ok, isOk_bytes, Bool.decide_eq_true, Bool.and_true,
    lengthMatches_eq_covers, zip_signFlags_all_fitsReg, Bool.and_assoc]

theorem isOk_parseBits32 (cs : List Char) : isOk (toResult .bits32 (parseBits32 cs)) = fitsBits32 cs := by
  rw [parseBits32_eq, isOk_toResult_ite, toResult_ok, isOk_bits32, Bool.and_true, Bool.eq_iff_iff, decide_eq_true_eq,
    fitsBits32_iff]

theorem isOk_renderInt (n : Int) : isOk (toResult .digits (renderInt n)) = decide (0 ≤ n) := by
  rw [renderInt_eq, isOk_toResult_ite, toResult_ok, isOk_digits, Bool.and_true]

/-- The checks of every pseudocode are the exceptions its rule lists. -/
theorem isOk_answerOf (build : Config) (i : Instr) : isOk (answerOf build i) = i.wellFormed := by
  cases i
  case val | f2b => rfl
  case reqRc | reqRdi | reqRhr | reqRir => exact isOk_readRequest _ _ _ (by decide)
  case rspRhr | rspRir => exact isOk_readRegsResponse _ _ _
  case b2f => exact isOk_parseBits32 _
  case i2b => exact isOk_renderInt _
  all_goals
    simp only [answerOf, writeCoilRequest_eq, writeRegisterRequest_eq, writeCoilsRequest_eq, writeRegistersRequest_eq,
      readBitsResponse_eq, echoValueResponse_eq, echoQuantityResponse_eq, exceptionPdu_eq, pack_eq, isOk_toResult_ite,
      toResult_ok, isOk_bytes, Bool.decide_eq_true, Bool.and_true, ← Bool.and_assoc]
    rfl

end Sys2Proof.Machine
end

section
/-! PROOFS. The exceptions of the rules, for all operations together: O32. -/

namespace Sys2Proof.Proofs

open Sys2Proof.Machine Sys2Proof.Stated

/-- Settles O32: an instruction's one answer is an `Ok` exactly if the checks of its rule hold. -/
theorem okExactlyOnWellFormedInstructions : Obligations.OkExactlyOnWellFormedInstructions := by
  unfold Obligations.OkExactlyOnWellFormedInstructions
  intro i s
  rw [← isOk_answerOf s.build]
  constructor
  · exact fun hok => ⟨answerOf s.build i, hok, exec_eq_answered i s⟩
  · rintro ⟨r, hok, hexec⟩
    rwa [exec_eq_answered_iff.mp hexec]

end Sys2Proof.Proofs
end

section
/-! SUPPORT. One group of the packer (41_bit_packer.md R151): its byte as a number, and bit by bit. -/

namespace Sys2Proof.Machine

/-- The number the bits of a group write, most significant first. -/
def groupNumber (grp : List Bool) : Nat := grp.foldl (fun n b => 2 * n + b.toNat) 0

/-- How many positions below the bits of a group of `len` stay empty. -/
def padding (align : ShortAlign) (len : Nat) : Nat := if align = .high then 8 - len else 0

theorem padding_add_le {len : Nat} (align : ShortAlign) (hlen : len ≤ 8) : padding align len + len ≤ 8 := by
  cases align <;> simp only [padding, reduceCtorEq, if_true, if_false] <;> omega

theorem groupNumber_concat (grp : List Bool) (b : Bool) : groupNumber (grp ++ [b]) = 2 * groupNumber grp + b.toNat :=
  List.foldl_concat ..

theorem groupNumber_lt (grp : List Bool) : groupNumber grp < 2 ^ grp.length := by
  induction grp using List.reverseRecOn with
  | nil => decide
  | append_singleton grp b ih =>
    have hb := Bool.toNat_lt b
    rw [groupNumber_concat, List.length_append, List.length_singleton, Nat.pow_succ]
    omega

theorem shiftLeft_or_bit (acc : Byte) (b : Bool) : acc <<< 1 ||| (if b then 1#8 else 0#8) = acc.shiftConcat b := by
  refine BitVec.eq_of_getLsbD_eq fun k hk => ?_
  rw [BitVec.getLsbD_shiftConcat]
  cases k with
  | zero => cases b <;> simp
  | succ k => cases b <;> simp [hk, BitVec.getLsbD_eq_getElem (Nat.lt_of_succ_lt hk)]

/-- A further bit is one more round of the algorithm: `byte := (byte << 1) | bit`. -/
theorem packGroup_low_concat (grp : List Bool) (b : Bool) :
    packGroup .low (grp ++ [b]) = (packGroup .low grp).shiftConcat b := by
  rw [← shiftLeft_or_bit]
  exact List.foldl_concat ..

theorem packGroup_eq_shiftLeft (align : ShortAlign) (grp : List Bool) :
    packGroup align grp = packGroup .low grp <<< padding align grp.length := by
  cases align
  · exact (BitVec.shiftLeft_zero _).symm
  · rfl

theorem toNat_packGroup_low {grp : List Bool} (hlen : grp.length ≤ 8) :
    (packGroup .low grp).toNat = groupNumber grp := by
  induction grp using List.reverseRecOn with
  | nil => rfl
  | append_singleton grp b ih =>
    have hbyte : groupNumber (grp ++ [b]) < 2 ^ 8 :=
      (groupNumber_lt _).trans_le (Nat.pow_le_pow_right Nat.two_pos hlen)
    rw [List.length_append] at hlen
    rw [groupNumber_concat] at hbyte ⊢
    rw [packGroup_low_concat, BitVec.toNat_shiftConcat, ih (Nat.le_of_succ_le hlen), Nat.shiftLeft_eq, pow_one, mul_comm,
      Nat.mod_eq_of_lt hbyte]

/-- The byte of a group as a number: nothing is shifted out of it. -/
theorem toNat_packGroup (align : ShortAlign) {grp : List Bool} (hlen : grp.length ≤ 8) :
    (packGroup align grp).toNat = groupNumber grp * 2 ^ padding align grp.length := by
  have hbyte : groupNumber grp * 2 ^ padding align grp.length < 2 ^ 8 := by
    calc groupNumber grp * 2 ^ padding align grp.length
        < 2 ^ grp.length * 2 ^ padding align grp.length :=
          Nat.mul_lt_mul_of_pos_right (groupNumber_lt grp) (Nat.two_pow_pos _)
      _ = 2 ^ (padding align grp.length + grp.length) := by rw [pow_add, mul_comm]
      _ ≤ 2 ^ 8 := Nat.pow_le_pow_right Nat.two_pos (padding_add_le align hlen)
  rw [packGroup_eq_shiftLeft, BitVec.toNat_shiftLeft, toNat_packGroup_low hlen, Nat.shiftLeft_eq, Nat.mod_eq_of_lt hbyte]

/-- The last bit of a group is the lowest of its byte, so the bits stand in it in reverse. -/
theorem getLsbD_packGroup_low (grp : List Bool) {k : Nat} (hk : k < 8) :
    (packGroup .low grp).getLsbD k = grp.reverse.getD k false := by
  induction grp using List.reverseRecOn generalizing k with
  | nil => exact BitVec.getLsbD_zero
  | append_singleton grp b ih =>
    rw [packGroup_low_concat, BitVec.getLsbD_shiftConcat, List.reverse_concat, decide_eq_true hk, Bool.true_and]
    cases k with
    | zero => rfl
    | succ k => exact ih (Nat.lt_of_succ_lt hk)

theorem getLsbD_packGroup (align : ShortAlign) (grp : List Bool) {k : Nat} (hk : k < 8) :
    (packGroup align grp).getLsbD k =
      (decide (padding align grp.length ≤ k) && grp.reverse.getD (k - padding align grp.length) false) := by
  simp only [packGroup_eq_shiftLeft align, BitVec.getLsbD_shiftLeft, getLsbD_packGroup_low _ (Nat.sub_lt_of_lt hk),
    decide_eq_true hk, Bool.true_and, ← decide_not, Nat.not_lt]

/-- The position of bit `j` of a group of `len`, counted from its first bit at the top (41_bit_packer.md R153). -/
def groupPosition (align : ShortAlign) (len j : Nat) : Nat := padding align len + (len - 1 - j)

theorem getLsbD_packGroup_groupPosition (align : ShortAlign) {grp : List Bool} {j : Nat} (hlen : grp.length ≤ 8)
    (hj : j < grp.length) : (packGroup align grp).getLsbD (groupPosition align grp.length j) = grp.getD j false := by
  have hpad := padding_add_le align hlen
  rw [groupPosition, getLsbD_packGroup align grp (by omega), decide_eq_true (Nat.le_add_right ..), Bool.true_and,
    Nat.add_sub_cancel_left, List.getD_reverse _ (by omega)]
  congr 1
  omega

theorem getLsbD_packGroup_eq_false (align : ShortAlign) {grp : List Bool} {k : Nat} (hk : k < 8)
    (hfree : ∀ j, j < grp.length → groupPosition align grp.length j ≠ k) : (packGroup align grp).getLsbD k = false := by
  rw [getLsbD_packGroup align grp hk, Bool.and_eq_false_iff, decide_eq_false_iff_not]
  refine or_iff_not_imp_left.mpr fun hpad => List.getD_eq_default _ _ ?_
  rw [List.length_reverse]
  by_contra hlt
  refine hfree (grp.length - 1 - (k - padding align grp.length)) (by omega) ?_
  rw [groupPosition]
  omega

end Sys2Proof.Machine
end

section
/-! SUPPORT. The bytes of a list (41_bit_packer.md R151): each is the byte of its group, and PACK returns them. -/

namespace Sys2Proof.Machine

open Sys2Proof.Stated

/-- Group `g` of a list: at most eight elements from element `8 * g` on. -/
def groupAt {α : Type} (xs : List α) (g : Nat) : List α := (xs.drop (8 * g)).take 8

theorem length_groupAt {α : Type} (xs : List α) (g : Nat) : (groupAt xs g).length = min 8 (xs.length - 8 * g) := by
  rw [groupAt, List.length_take, List.length_drop]

theorem length_groupAt_le {α : Type} (xs : List α) (g : Nat) : (groupAt xs g).length ≤ 8 := by
  rw [groupAt, List.length_take]
  exact Nat.min_le_left ..

theorem map_groupAt {α β : Type} (f : α → β) (xs : List α) (g : Nat) : (groupAt xs g).map f = groupAt (xs.map f) g := by
  rw [groupAt, groupAt, List.map_take, List.map_drop]

theorem getD_groupAt {α : Type} (xs : List α) (d : α) {g j : Nat} (hj : j < 8) :
    (groupAt xs g).getD j d = xs.getD (8 * g + j) d := by
  rw [groupAt, List.getD_eq_getElem?_getD, List.getElem?_take_of_lt hj, List.getElem?_drop, List.getD_eq_getElem?_getD]

theorem getD_packBits (align : ShortAlign) (bs : List Bool) {g : Nat} (hg : g < (packBits align bs).length) :
    (packBits align bs).getD g 0 = packGroup align (groupAt bs g) := by
  rw [List.getD_eq_getElem _ _ hg]
  simp only [packBits, bitGroups, List.getElem_map, List.getElem_range, groupAt]

/-- The positions of R153 are those of the bits in their groups. -/
theorem bitPosition_eq_groupPosition {α : Type} (align : ShortAlign) (xs : List α) {i : Nat} (hi : i < xs.length) :
    bitPosition align xs.length i = groupPosition align (groupAt xs (i / 8)).length (i % 8) := by
  rw [groupPosition, length_groupAt, bitPosition, padding]
  cases align <;> simp only [reduceCtorEq, if_true, if_false] <;> split_ifs <;> omega

theorem lt_length_packBits_of_lt (align : ShortAlign) {bs : List Bool} {i : Nat} (hi : i < bs.length) :
    i / 8 < (packBits align bs).length := by
  rw [length_packBits, byteCountCoils_eq]
  omega

theorem getLsbD_packBits_bitPosition (align : ShortAlign) {bs : List Bool} {i : Nat} (hi : i < bs.length) :
    ((packBits align bs).getD (i / 8) 0).getLsbD (bitPosition align bs.length i) = bs.getD i false := by
  have hj : i % 8 < (groupAt bs (i / 8)).length := by rw [length_groupAt]; omega
  rw [getD_packBits align bs (lt_length_packBits_of_lt align hi), bitPosition_eq_groupPosition align bs hi,
    getLsbD_packGroup_groupPosition align (length_groupAt_le ..) hj, getD_groupAt bs false (Nat.mod_lt i (by decide)),
    Nat.div_add_mod]

theorem getLsbD_packBits_eq_false (align : ShortAlign) {bs : List Bool} {g k : Nat}
    (hg : g < (packBits align bs).length) (hk : k < 8)
    (hfree : ∀ i, i < bs.length → i / 8 = g → bitPosition align bs.length i ≠ k) :
    ((packBits align bs).getD g 0).getLsbD k = false := by
  rw [getD_packBits align bs hg]
  refine getLsbD_packGroup_eq_false align hk fun j hj => ?_
  rw [length_groupAt] at hj
  have hi : 8 * g + j < bs.length := by omega
  have hdiv : (8 * g + j) / 8 = g := by omega
  have hmod : (8 * g + j) % 8 = j := by omega
  have hne := hfree _ hi hdiv
  rwa [bitPosition_eq_groupPosition align bs hi, hdiv, hmod] at hne

theorem packBits_of_one_group (align : ShortAlign) {bs : List Bool} (hmin : 1 ≤ bs.length) (hmax : bs.length ≤ 8) :
    packBits align bs = [packGroup align bs] := by
  have hcount : ceilDiv bs.length 8 = 1 := by rw [ceilDiv]; omega
  rw [packBits, bitGroups, hcount]
  simp [List.take_of_length_le hmax]

/-- A full group reads back from its byte, under either alignment. -/
theorem getLsbD_packGroup_full (align : ShortAlign) {bs : List Bool} (hfull : bs.length = 8) :
    (List.range 8).map (fun i => (packGroup align bs).getLsbD (7 - i)) = bs := by
  refine List.ext_getElem (by rw [List.length_map, List.length_range, hfull]) fun i _ hi => ?_
  have hpos : groupPosition align bs.length i = 7 - i := by
    rw [groupPosition, padding, hfull, Nat.sub_self, ite_self, Nat.zero_add]
  rw [List.getElem_map, List.getElem_range, ← hpos, getLsbD_packGroup_groupPosition align hfull.le hi,
    List.getD_eq_getElem _ _ hi]

theorem bitSense_eq_bitOf : bitSense = bitOf := by
  funext e
  cases e <;> simp [bitSense, bitOf]

theorem exec_pack_of_align {s : State} {align : ShortAlign} {vs : List BitIn} {p : List Byte}
    (halign : s.build.packShortAlign = align) (hp : pack align vs = .ok p) :
    exec (.pack vs) s = .next (answered s (.bytes p)) := by
  subst halign
  exact exec_of_answer (congrArg (toResult .bytes) hp)

theorem exec_pack {vs : List BitIn} (s : State) (hbits : ∀ e ∈ vs, IsBit e) :
    exec (.pack vs) s = .next (answered s (.bytes (packBits s.build.packShortAlign (vs.map bitOf)))) := by
  rw [← bitSense_eq_bitOf]
  exact exec_pack_of_align rfl (pack_ok hbits)

theorem exec_pack_notABit {vs : List BitIn} (s : State) (hbad : ∃ e ∈ vs, ¬ IsBit e) :
    exec (.pack vs) s = .next (answered s (.err .notABit)) := by
  obtain ⟨e, he, hne⟩ := hbad
  rw [exec_eq_answered_iff, answerOf, pack_eq, if_neg fun h => hne (all_isBit_iff.mp h e he), toResult_error]

end Sys2Proof.Machine
end

section
/-! PROOFS. The bit packer of 41_bit_packer.md: O19, O20, O21. -/

namespace Sys2Proof.Proofs

open Sys2Proof.Machine Sys2Proof.Stated

/-- Settles O19: each byte is the one of its group, which holds the group's number above its padding. -/
theorem packFollowsTheAlgorithm : Obligations.PackFollowsTheAlgorithm := by
  unfold Obligations.PackFollowsTheAlgorithm
  refine ⟨decode_cmd .pack, fun s vs => ⟨fun hbits => ⟨_, exec_pack s hbits, ?_, ?_⟩, exec_pack_notABit s⟩⟩
  · rw [length_packBits, List.length_map, byteCountCoils_eq]
  · rintro g hg _ rfl
    have hgrp : ((vs.drop (8 * g)).take 8).map bitOf = groupAt (vs.map bitOf) g := map_groupAt bitOf vs g
    rw [hgrp, getD_packBits _ _ hg, toNat_packGroup _ (length_groupAt_le ..), padding, pow_ite, pow_zero]
    rfl

/-- Settles O20: element `i` is bit `i % 8` of group `i / 8`, and a position no bit of the group takes is 0. -/
theorem packPlacesEveryBit : Obligations.PackPlacesEveryBit := by
  unfold Obligations.PackPlacesEveryBit
  intro s vs hbits
  have hlen : (vs.map bitOf).length = vs.length := List.length_map ..
  refine ⟨_, exec_pack s hbits, fun i hi => ?_, fun g k hg hk hfree => ?_⟩
  · have hbit : (vs.map bitOf).getD i false = bitOf (vs.getD i (.int 0)) :=
      List.getD_map vs (.int 0) bitOf
    rw [← hbit, ← hlen]
    exact getLsbD_packBits_bitPosition _ (hlen ▸ hi)
  · rw [← hlen] at hfree
    exact getLsbD_packBits_eq_false _ hg hk hfree

/-- Settles O21: a short group loses its leading zeros under LOW and its trailing zeros under HIGH, and 01000 under LOW is the
byte 08 that 00001 is under HIGH. -/
theorem fullGroupReadsBackShortGroupDoesNot : Obligations.FullGroupReadsBackShortGroupDoesNot := by
  unfold Obligations.FullGroupReadsBackShortGroupDoesNot
  refine ⟨fun s vs hlen hbits => ?_, fun s vs hlen hbits => ?_, fun s => ?_, fun s s' hlow hhigh => ?_⟩
  · rw [← List.length_map bitOf] at hlen
    have hexec := exec_pack s hbits
    rw [packBits_of_one_group _ (by omega) hlen.le] at hexec
    exact ⟨_, hexec, getLsbD_packGroup_full _ hlen⟩
  · have hcount : (packBits s.build.packShortAlign (vs.map bitOf)).length = 2 := by
      rw [length_packBits, List.length_map, hlen]
      rfl
    obtain ⟨b0, b1, hp⟩ := List.length_eq_two.mp hcount
    exact ⟨b0, b1, hp ▸ exec_pack s hbits⟩
  · cases halign : s.build.packShortAlign with
    | low =>
      exact ⟨[.int 1], [.int 0, .int 1], [0x01], by decide, exec_pack_of_align halign rfl, exec_pack_of_align halign rfl⟩
    | high =>
      exact ⟨[.int 1], [.int 1, .int 0], [0x80], by decide, exec_pack_of_align halign rfl, exec_pack_of_align halign rfl⟩
  · exact ⟨[.int 0, .int 1, .int 0, .int 0, .int 0], [.int 0, .int 0, .int 0, .int 0, .int 1], [0x08], rfl, by decide,
      exec_pack_of_align hlow rfl, exec_pack_of_align hhigh rfl⟩

end Sys2Proof.Proofs
end

section
/-! SUPPORT. The flags of a list of register values (42_response_encoder.md R173): the checks of RSP.RHR and RSP.RIR, and the bytes they
give, element by element. -/

namespace Sys2Proof.Machine

open Sys2Proof.Stated

theorem lengthMatches_iff_covers {n : Nat} {sg : Signedness} : lengthMatches n sg = true ↔ Covers n sg := by
  cases sg <;> simp [lengthMatches, Covers]

/-- The list of flags holds `SignFlag(signedness, i)` at `i`. -/
theorem getElem_signFlags {n i : Nat} {sg : Signedness} (hi : i < (signFlags n sg).length) :
    (signFlags n sg)[i] = flagAt i sg := by
  cases sg with
  | uniform b => exact List.getElem_replicate hi
  | perElement fs => exact (List.getD_eq_getElem fs false hi).symm

variable {vs : List Int} {sg : Signedness}

theorem length_signFlags_of_covers (hsg : Covers vs.length sg) : (signFlags vs.length sg).length = vs.length :=
  signFlags_length _ _ (lengthMatches_iff_covers.mpr hsg)

/-- Each value is checked under the flag of its own index. -/
theorem zip_signFlags_all_fitsReg_iff (hsg : Covers vs.length sg) :
    (vs.zip (signFlags vs.length sg)).all (fun p => fitsReg p.2 p.1) = true ↔
      ∀ i, i < vs.length → RegFits (flagAt i sg) (vs.getD i 0) := by
  have hlen : (vs.zip (signFlags vs.length sg)).length = vs.length := by
    rw [List.length_zip, length_signFlags_of_covers hsg, Nat.min_self]
  simp only [List.all_eq_true, List.forall_mem_iff_forall_getElem, fitsReg_iff_regFits, List.getElem_zip,
    getElem_signFlags, hlen]
  refine forall₂_congr fun i hi => ?_
  rw [List.getD_eq_getElem vs 0 hi]

/-- The bytes of the values do not depend on the flags. -/
theorem flatMap_zip_signFlags (hsg : Covers vs.length sg) :
    (vs.zip (signFlags vs.length sg)).flatMap (fun p => regBytes p.1) = vs.flatMap (fun v => [hi v, lo v]) := by
  rw [← List.flatMap_map Prod.fst regBytes, List.map_fst_zip (length_signFlags_of_covers hsg).ge,
    funext regBytes_eq_hi_lo]

end Sys2Proof.Machine
end

section
/-! SUPPORT. The responses (42_response_encoder.md): the outcome of each pseudocode under the conditions of its rule, in the order of
the rule's checks, and the rule of the two operations that share the pseudocode. -/

namespace Sys2Proof.Machine

open Sys2Proof.Stated

/-- An instruction that answers with the outcome of a pseudocode returns that outcome, once it is known. -/
theorem exec_of_outcome {i : Instr} {s : State} {r r' : Except ErrorCode (List Byte)}
    (hanswer : answerOf s.build i = toResult .bytes r) (h : r = r') :
    exec i s = .next (answered s (toResult .bytes r')) :=
  exec_of_answer (h ▸ hanswer)

section

variable {fc : Byte} {align : ShortAlign} {vs : List BitIn}

theorem readBitsResponse_ok (hmax : vs.length ≤ 2040) (hbits : ∀ e ∈ vs, IsBit e) :
    readBitsResponse fc align vs =
      .ok ([fc, byteOf ((vs.length + 7) / 8)] ++ packBits align (vs.map bitSense)) := by
  rw [readBitsResponse_eq, if_pos hmax, if_pos (all_isBit_iff.mpr hbits), ofInt_natCast_eq_byteOf, byteCountCoils_eq]
  rfl

theorem readBitsResponse_fieldOverflow (h : 2040 < vs.length) : readBitsResponse fc align vs = .error .fieldOverflow := by
  rw [readBitsResponse_eq, if_neg h.not_ge]

theorem readBitsResponse_notABit (hmax : vs.length ≤ 2040) (hbad : ∃ e ∈ vs, ¬ IsBit e) :
    readBitsResponse fc align vs = .error .notABit := by
  obtain ⟨e, he, hne⟩ := hbad
  rw [readBitsResponse_eq, if_pos hmax, if_neg fun h => hne (all_isBit_iff.mp h e he)]

/-- The rule of a bits response; the packed bytes are PACK's, under the build of the same state. -/
theorem readBitsResponse_follows_rule (op : Op) {mk : List BitIn → Instr} (hop : ∀ o, op.instr o = mk o.bits)
    (hanswer : ∀ build vs, answerOf build (mk vs) = toResult .bytes (readBitsResponse fc build.packShortAlign vs)) :
    ReadBitsResponseRule mk op.cmd fc := by
  refine ⟨fun o => by rw [decode_cmd, hop], fun s vs => ⟨fun hmax hbits => ?_, fun h => ?_, fun hmax hbad => ?_⟩⟩
  · exact ⟨_, exec_of_outcome rfl (pack_ok hbits), exec_of_outcome (hanswer _ _) (readBitsResponse_ok hmax hbits)⟩
  · exact exec_of_outcome (hanswer _ _) (readBitsResponse_fieldOverflow h)
  · exact exec_of_outcome (hanswer _ _) (readBitsResponse_notABit hmax hbad)

end

section

variable {fc : Byte} {vs : List Int} {sg : Signedness}

theorem inRange_maxReadRegs_iff {n : Nat} : inRange 1 maxReadRegs n = true ↔ 1 ≤ n ∧ n ≤ 125 :=
  inRange_length_iff (limit := 125)

theorem readRegsResponse_ok (hmin : 1 ≤ vs.length) (hmax : vs.length ≤ 125) (hsg : Covers vs.length sg)
    (hvs : ∀ i, i < vs.length → RegFits (flagAt i sg) (vs.getD i 0)) :
    readRegsResponse fc vs sg = .ok ([fc, byteOf (2 * vs.length)] ++ vs.flatMap (fun v => [hi v, lo v])) := by
  rw [readRegsResponse_eq, if_pos (inRange_maxReadRegs_iff.mpr ⟨hmin, hmax⟩), if_pos (lengthMatches_iff_covers.mpr hsg),
    if_pos ((zip_signFlags_all_fitsReg_iff hsg).mpr hvs), flatMap_zip_signFlags hsg, ofInt_natCast_eq_byteOf]
  rfl

theorem readRegsResponse_invalidQuantity (h : vs.length < 1 ∨ 125 < vs.length) :
    readRegsResponse fc vs sg = .error .invalidQuantity := by
  rw [readRegsResponse_eq, if_neg (by rw [inRange_maxReadRegs_iff]; omega)]

theorem readRegsResponse_lengthMismatch (hmin : 1 ≤ vs.length) (hmax : vs.length ≤ 125) (hsg : ¬ Covers vs.length sg) :
    readRegsResponse fc vs sg = .error .lengthMismatch := by
  rw [readRegsResponse_eq, if_pos (inRange_maxReadRegs_iff.mpr ⟨hmin, hmax⟩), if_neg (mt lengthMatches_iff_covers.mp hsg)]

theorem readRegsResponse_fieldOverflow (hmin : 1 ≤ vs.length) (hmax : vs.length ≤ 125) (hsg : Covers vs.length sg)
    (hbad : ∃ i, i < vs.length ∧ ¬ RegFits (flagAt i sg) (vs.getD i 0)) :
    readRegsResponse fc vs sg = .error .fieldOverflow := by
  obtain ⟨i, hi, hne⟩ := hbad
  rw [readRegsResponse_eq, if_pos (inRange_maxReadRegs_iff.mpr ⟨hmin, hmax⟩), if_pos (lengthMatches_iff_covers.mpr hsg),
    if_neg fun h => hne ((zip_signFlags_all_fitsReg_iff hsg).mp h i hi)]

/-- The rule of a registers response. -/
theorem readRegsResponse_follows_rule (op : Op) {mk : List Int → Signedness → Instr}
    (hop : ∀ o, op.instr o = mk o.regs o.signedness)
    (hanswer : ∀ build vs sg, answerOf build (mk vs sg) = toResult .bytes (readRegsResponse fc vs sg)) :
    ReadRegsResponseRule mk op.cmd fc := by
  refine ⟨fun o => by rw [decode_cmd, hop], fun s vs sg => ⟨fun hmin hmax hsg hvs => ?_, fun h => ?_,
    fun hmin hmax hsg => ?_, fun hmin hmax hsg hbad => ?_⟩⟩
  · exact exec_of_outcome (hanswer _ _ _) (readRegsResponse_ok hmin hmax hsg hvs)
  · exact exec_of_outcome (hanswer _ _ _) (readRegsResponse_invalidQuantity h)
  · exact exec_of_outcome (hanswer _ _ _) (readRegsResponse_lengthMismatch hmin hmax hsg)
  · exact exec_of_outcome (hanswer _ _ _) (readRegsResponse_fieldOverflow hmin hmax hsg hbad)

end

section

variable {fc : Byte} {a : Int} {echo : List Byte}

theorem echoValueResponse_ok {b0 b1 : Byte} {rest : List Byte} (ha : Fits16 a) :
    echoValueResponse fc a (b0 :: b1 :: rest) = .ok [fc, hi a, lo a, b0, b1] := by
  have hlen : 2 ≤ (b0 :: b1 :: rest).length := Nat.le_add_left ..
  rw [echoValueResponse_eq, if_pos (fitsU16_iff_fits16.mpr ha), if_pos hlen, regBytes_eq_hi_lo]
  rfl

theorem echoValueResponse_fieldOverflow (ha : ¬ Fits16 a) : echoValueResponse fc a echo = .error .fieldOverflow := by
  rw [echoValueResponse_eq, if_neg (mt fitsU16_iff_fits16.mp ha)]

theorem echoValueResponse_shortPayload (ha : Fits16 a) (h : echo.length < 2) :
    echoValueResponse fc a echo = .error .shortPayload := by
  rw [echoValueResponse_eq, if_pos (fitsU16_iff_fits16.mpr ha), if_neg h.not_ge]

/-- The rule of a response that echoes a value. -/
theorem echoValueResponse_follows_rule (op : Op) {mk : Int → List Byte → Instr}
    (hop : ∀ o, op.instr o = mk o.address o.echo)
    (hanswer : ∀ build a echo, answerOf build (mk a echo) = toResult .bytes (echoValueResponse fc a echo)) :
    EchoValueRule mk op.cmd fc := by
  refine ⟨fun o => by rw [decode_cmd, hop], fun s a echo => ⟨?_, fun ha => ?_, fun ha h => ?_⟩⟩
  · rintro b0 b1 rest ha rfl
    exact exec_of_outcome (hanswer _ _ _) (echoValueResponse_ok ha)
  · exact exec_of_outcome (hanswer _ _ _) (echoValueResponse_fieldOverflow ha)
  · exact exec_of_outcome (hanswer _ _ _) (echoValueResponse_shortPayload ha h)

end

section

variable {fc : Byte} {a q : Int}

theorem fits_address_and_quantity_iff : (fitsU16 a && fitsU16 q) = true ↔ Fits16 a ∧ Fits16 q := by
  rw [Bool.and_eq_true, fitsU16_iff_fits16, fitsU16_iff_fits16]

theorem echoQuantityResponse_ok (ha : Fits16 a) (hq : Fits16 q) :
    echoQuantityResponse fc a q = .ok [fc, hi a, lo a, hi q, lo q] := by
  rw [echoQuantityResponse_eq, if_pos (fits_address_and_quantity_iff.mpr ⟨ha, hq⟩), regBytes_eq_hi_lo, regBytes_eq_hi_lo]
  rfl

theorem echoQuantityResponse_fieldOverflow (h : ¬ Fits16 a ∨ ¬ Fits16 q) :
    echoQuantityResponse fc a q = .error .fieldOverflow := by
  rw [echoQuantityResponse_eq, if_neg (mt fits_address_and_quantity_iff.mp (not_and_or.mpr h))]

/-- The rule of a response that echoes a quantity. -/
theorem echoQuantityResponse_follows_rule (op : Op) {mk : Int → Int → Instr}
    (hop : ∀ o, op.instr o = mk o.address o.quantity)
    (hanswer : ∀ build a q, answerOf build (mk a q) = toResult .bytes (echoQuantityResponse fc a q)) :
    EchoQuantityRule mk op.cmd fc := by
  refine ⟨fun o => by rw [decode_cmd, hop], fun s a q => ⟨fun ha hq => ?_, fun h => ?_⟩⟩
  · exact exec_of_outcome (hanswer _ _ _) (echoQuantityResponse_ok ha hq)
  · exact exec_of_outcome (hanswer _ _ _) (echoQuantityResponse_fieldOverflow h)

end

end Sys2Proof.Machine
end

section
/-! PROOFS. The responses of 42_response_encoder.md, rule by rule: O15, O16, O17, O18. -/

namespace Sys2Proof.Proofs

open Sys2Proof.Machine Sys2Proof.Stated

/-- Settles O15: both operations are one pseudocode under two codes, which checks the byte count before it packs. -/
theorem readBitsResponsesFollowTheirRules : Obligations.ReadBitsResponsesFollowTheirRules := by
  unfold Obligations.ReadBitsResponsesFollowTheirRules
  exact ⟨readBitsResponse_follows_rule .rspRc (fun _ => rfl) (fun _ _ => rfl),
    readBitsResponse_follows_rule .rspRdi (fun _ => rfl) (fun _ _ => rfl)⟩

/-- Settles O16: both operations are one pseudocode under two codes, which checks each value under the flag of its index. -/
theorem readRegistersResponsesFollowTheirRules : Obligations.ReadRegistersResponsesFollowTheirRules := by
  unfold Obligations.ReadRegistersResponsesFollowTheirRules
  exact ⟨readRegsResponse_follows_rule .rspRhr (fun _ => rfl) (fun _ _ _ => rfl),
    readRegsResponse_follows_rule .rspRir (fun _ => rfl) (fun _ _ _ => rfl)⟩

/-- Settles O17: both operations are one pseudocode under two codes, which takes two echo bytes after it checks the address. -/
theorem singleWriteResponsesFollowTheirRules : Obligations.SingleWriteResponsesFollowTheirRules := by
  unfold Obligations.SingleWriteResponsesFollowTheirRules
  exact ⟨echoValueResponse_follows_rule .rspWsc (fun _ => rfl) (fun _ _ _ => rfl),
    echoValueResponse_follows_rule .rspWsr (fun _ => rfl) (fun _ _ _ => rfl)⟩

/-- Settles O18: both operations are one pseudocode under two codes, whose only checks are those of the two fields. -/
theorem multipleWriteResponsesFollowTheirRules : Obligations.MultipleWriteResponsesFollowTheirRules := by
  unfold Obligations.MultipleWriteResponsesFollowTheirRules
  exact ⟨echoQuantityResponse_follows_rule .rspWmc (fun _ => rfl) (fun _ _ _ => rfl),
    echoQuantityResponse_follows_rule .rspWmr (fun _ => rfl) (fun _ _ _ => rfl)⟩

end Sys2Proof.Proofs
end

section
/-! SUPPORT. The validator (43_response_validator.md R211 to R214): when a payload is decoded, when a decoded payload meets the
expectation, and when the verdict is true. -/

namespace Sys2Proof.Machine

open Sys2Proof.Stated

/-- A payload is decoded if it has the four bytes of the two fields, and nothing after them under EXACT. -/
theorem lenOK_iff {policy : LenPolicy} {data : List Byte} :
    lenOK policy data = true ↔
      ∃ b0 b1 b2 b3 rest, data = b0 :: b1 :: b2 :: b3 :: rest ∧ (policy = .exactLength → rest = []) := by
  match data with
  | [] | [_] | [_, _] | [_, _, _] => cases policy <;> simp [lenOK]
  | _ :: _ :: _ :: _ :: _ => cases policy <;> simp [lenOK]

theorem matchesExpected_iff {ra rf a : Int} {expected : Option Int} :
    matchesExpected ra rf a expected = true ↔ a = ra ∧ expected = some rf := by
  cases expected with
  | none => simp [matchesExpected]
  | some v => simp [matchesExpected, eq_comm (a := ra), eq_comm (a := rf)]

section

variable {policy : LenPolicy} {data : List Byte} {b0 b1 b2 b3 : Byte} {rest : List Byte} {fc a : Int} {ev eq : Option Int}
  {signed : Bool}

/-- The verdict on a decoded payload: the function code selects the expectation that the second field has to equal. -/
theorem validate_cons_iff (hrest : policy = .exactLength → rest = []) :
    validate policy (b0 :: b1 :: b2 :: b3 :: rest) fc a ev eq signed = true ↔
      a = dec16 b0 b1 false ∧
        (((fc = 5 ∨ fc = 6) ∧ ev = some (dec16 b2 b3 signed)) ∨
          ((fc = 15 ∨ fc = 16) ∧ eq = some (dec16 b2 b3 signed))) := by
  have hlen : lenOK policy (b0 :: b1 :: b2 :: b3 :: rest) = true := lenOK_iff.mpr ⟨b0, b1, b2, b3, rest, rfl, hrest⟩
  have hselect : validate policy (b0 :: b1 :: b2 :: b3 :: rest) fc a ev eq signed =
      if fc = 5 ∨ fc = 6 then matchesExpected (dec16 b0 b1 false) (dec16 b2 b3 signed) a ev
      else if fc = 15 ∨ fc = 16 then matchesExpected (dec16 b0 b1 false) (dec16 b2 b3 signed) a eq
      else false := if_pos hlen
  rw [hselect]
  by_cases hvalue : fc = 5 ∨ fc = 6
  · have hquantity : ¬ (fc = 15 ∨ fc = 16) := by omega
    simp [hvalue, hquantity, matchesExpected_iff]
  · by_cases hquantity : fc = 15 ∨ fc = 16
    · simp [hvalue, hquantity, matchesExpected_iff]
    · simp [hvalue, hquantity]

/-- When the verdict is true, in the terms of R211 to R214. -/
theorem validate_iff :
    validate policy data fc a ev eq signed = true ↔
      ∃ b0 b1 b2 b3 rest, data = b0 :: b1 :: b2 :: b3 :: rest ∧ (policy = .exactLength → rest = []) ∧
        a = dec16 b0 b1 false ∧
        (((fc = 5 ∨ fc = 6) ∧ ev = some (dec16 b2 b3 signed)) ∨
          ((fc = 15 ∨ fc = 16) ∧ eq = some (dec16 b2 b3 signed))) := by
  constructor
  · intro h
    by_cases hlen : lenOK policy data = true
    · obtain ⟨b0, b1, b2, b3, rest, rfl, hrest⟩ := lenOK_iff.mp hlen
      exact ⟨b0, b1, b2, b3, rest, rfl, hrest, (validate_cons_iff hrest).mp h⟩
    · rw [validate, if_neg hlen] at h
      cases h
  · rintro ⟨b0, b1, b2, b3, rest, rfl, hrest, h⟩
    exact (validate_cons_iff hrest).mpr h

end

theorem dec16_false (b0 b1 : Byte) : dec16 b0 b1 false = (b0.toNat * 256 + b1.toNat : Int) := by
  simp [dec16]

/-- An address field reads back as the address it encodes. -/
theorem dec16_hi_lo_of_fits16 {a : Int} (ha : Fits16 a) : dec16 (hi a) (lo a) false = a :=
  dec16_hi_lo ⟨nofun, fun _ => ha⟩

/-- The payload that carries an address and a register value validates for them and for no others, under both policies. -/
theorem validate_register_write (policy : LenPolicy) {a v : Int} {signed : Bool} (ha : Fits16 a) (hv : RegFits signed v)
    (a' v' : Int) :
    validate policy [hi a, lo a, hi v, lo v] 6 a' (some v') none signed = decide (a' = a ∧ v' = v) := by
  rw [Bool.eq_iff_iff, validate_cons_iff (fun _ => rfl), dec16_hi_lo_of_fits16 ha, dec16_hi_lo hv]
  simp

end Sys2Proof.Machine
end

section
/-! PROOFS. The validator of 43_response_validator.md: O22, O23. -/

namespace Sys2Proof.Proofs

open Sys2Proof.Machine Sys2Proof.Stated

/-- Settles O22: a payload that passes the length check is decoded, and the function code selects the expectation. -/
theorem validatorFollowsItsRules : Obligations.ValidatorFollowsItsRules := by
  unfold Obligations.ValidatorFollowsItsRules
  refine ⟨decode_cmd .val, fun s data fc a ev eq signed => ⟨_, exec_eq_answered _ s, ?_⟩⟩
  simp only [← dec16_eq_fieldValue, ← dec16_false]
  exact validate_iff

/-- Settles O23: the response echoes the bytes of the value, so VAL decodes the two fields REQ.WSR encoded. -/
theorem validatorAgreesWithTheEncoders : Obligations.ValidatorAgreesWithTheEncoders := by
  unfold Obligations.ValidatorAgreesWithTheEncoders
  intro s a v signed ha hv
  refine ⟨[0x06, hi a, lo a, hi v, lo v], [0x06, hi a, lo a, hi v, lo v], ?_, ?_, fun a' v' => ?_⟩
  · exact exec_of_answer (congrArg (toResult .bytes) (writeRegisterRequest_ok ha hv))
  · exact exec_of_answer (congrArg (toResult .bytes) (echoValueResponse_ok ha))
  · exact exec_of_answer (congrArg Result.verdict (validate_register_write _ ha hv a' v'))

end Sys2Proof.Proofs
end

section
/-! RULES. 44_exception_encoder.md: the exception response for operands inside and outside a byte. -/

namespace Sys2Proof.Machine

open Sys2Proof.Stated

section

variable {fc code : Int}

theorem fits_function_and_exception_code_iff : (fitsU8 fc && fitsU8 code) = true ↔ Fits8 fc ∧ Fits8 code := by
  rw [Bool.and_eq_true, fitsU8_iff_fits8, fitsU8_iff_fits8]

/-- The or with 0x80 may be taken on the number or on its byte. -/
theorem byteOf_or_errorBias (n : Nat) : byteOf n ||| errorBias = byteOf (n ||| 0x80) :=
  (BitVec.ofNat_or (x := n) (y := 0x80)).symm

theorem exceptionPdu_ok (hfc : Fits8 fc) (hcode : Fits8 code) :
    exceptionPdu fc code = .ok [byteOf (fc.toNat ||| 0x80), byteOf code.toNat] := by
  rw [exceptionPdu_eq, if_pos (fits_function_and_exception_code_iff.mpr ⟨hfc, hcode⟩), Proofs.ofInt_eq_byteOf hfc,
    Proofs.ofInt_eq_byteOf hcode, byteOf_or_errorBias]

theorem exceptionPdu_fieldOverflow (h : ¬ Fits8 fc ∨ ¬ Fits8 code) : exceptionPdu fc code = .error .fieldOverflow := by
  rw [exceptionPdu_eq, if_neg (mt fits_function_and_exception_code_iff.mp (not_and_or.mpr h))]

end

end Sys2Proof.Machine
end

section
/-! PROOFS. The exception encoder of 44_exception_encoder.md: O24. -/

namespace Sys2Proof.Proofs

open Sys2Proof.Machine Sys2Proof.Stated

/-- Settles O24: EXC answers its PDU, which is built exactly when both operands fit a byte. -/
theorem exceptionEncoderFollowsItsRule : Obligations.ExceptionEncoderFollowsItsRule := by
  unfold Obligations.ExceptionEncoderFollowsItsRule
  refine ⟨decode_cmd .exc, fun s fc code => ⟨fun hfc hcode => ?_, fun h => ?_⟩⟩
  · exact exec_of_answer (congrArg (toResult .bytes) (exceptionPdu_ok hfc hcode))
  · exact exec_of_answer (congrArg (toResult .bytes) (exceptionPdu_fieldOverflow h))

end Sys2Proof.Proofs
end

section
/-! SUPPORT. The digit strings of 45_numeric_codec.md R250: the `k` digits of a number as the inverse of the number of a digit
string (R254), and as few of them as the number needs (R257). -/

namespace Sys2Proof.Machine

open Sys2Proof.Stated

theorem isDigit_iff {c : Char} : isDigit c = true ↔ IsDigit c := decide_eq_true_iff

theorem all_isDigit_iff {cs : List Char} : cs.all isDigit = true ↔ ∀ c ∈ cs, IsDigit c := by
  simp only [List.all_eq_true, isDigit_iff]

theorem isDigit_digitChar (b : Bool) : IsDigit (digitChar b) := by
  cases b
  · exact .inl rfl
  · exact .inr rfl

/-- A digit is the character of its own bit. -/
theorem digitChar_of_isDigit {c : Char} (h : IsDigit c) : digitChar (decide (c = '1')) = c := by
  rcases h with rfl | rfl <;> rfl

@[simp] theorem digitsOf_zero (n : Nat) : digitsOf 0 n = [] := rfl

/-- The first of `k + 1` digits is the one of bit `k`. -/
theorem digitsOf_succ (k n : Nat) : digitsOf (k + 1) n = digitChar (n.testBit k) :: digitsOf k n := by
  rw [digitsOf, List.range_succ, List.reverse_append, List.map_append]
  rfl

@[simp] theorem length_digitsOf (k n : Nat) : (digitsOf k n).length = k := by
  rw [digitsOf, List.length_map, List.length_reverse, List.length_range]

theorem isDigit_of_mem_digitsOf {k n : Nat} {c : Char} (h : c ∈ digitsOf k n) : IsDigit c := by
  obtain ⟨i, -, rfl⟩ := List.mem_map.mp h
  exact isDigit_digitChar _

theorem getElem?_digitsOf {k i : Nat} (n : Nat) (hi : i < k) :
    (digitsOf k n)[i]? = some (digitChar (n.testBit (k - 1 - i))) := by
  have hlen : i < (digitsOf k n).length := by rwa [length_digitsOf]
  rw [List.getElem?_eq_getElem hlen]
  simp [digitsOf]

theorem digitsOf_congr {k m n : Nat} (h : ∀ i < k, m.testBit i = n.testBit i) : digitsOf k m = digitsOf k n :=
  List.map_congr_left fun i hi => congrArg digitChar (h i (by simpa using hi))

/-- The digits of a longer number are those of its part above bit `k` and those of its low `k` bits. -/
theorem digitsOf_add (j k n : Nat) : digitsOf (j + k) n = digitsOf j (n >>> k) ++ digitsOf k n := by
  induction j with
  | zero => rw [Nat.zero_add, digitsOf_zero, List.nil_append]
  | succ j ih =>
    rw [Nat.add_right_comm, digitsOf_succ, ih, digitsOf_succ, Nat.testBit_shiftRight, Nat.add_comm k j, List.cons_append]

theorem digitsOf_toNat_append {v w : Nat} (x : BitVec v) (y : BitVec w) :
    digitsOf (v + w) (x ++ y).toNat = digitsOf v x.toNat ++ digitsOf w y.toNat := by
  rw [digitsOf_add]
  congr 1
  · refine digitsOf_congr fun i _ => ?_
    rw [Nat.testBit_shiftRight, BitVec.testBit_toNat, BitVec.testBit_toNat, BitVec.getLsbD_append,
      if_neg (Nat.not_lt.mpr (Nat.le_add_right w i)), Nat.add_sub_cancel_left]
  · refine digitsOf_congr fun i hi => ?_
    rw [BitVec.testBit_toNat, BitVec.testBit_toNat, BitVec.getLsbD_append, if_pos hi]

/-- The `k` digits of a number write its residue. -/
theorem binaryValue_digitsOf (k n : Nat) : binaryValue (digitsOf k n) = n % 2 ^ k := by
  induction k with
  | zero => rw [digitsOf_zero, binaryValue, Nat.pow_zero, Nat.mod_one]
  | succ k ih =>
    rw [digitsOf_succ, binaryValue, ih, length_digitsOf, Nat.mod_pow_succ, Nat.testBit_eq_decide_div_mod_eq]
    rcases Nat.mod_two_eq_zero_or_one (n / 2 ^ k) with hbit | hbit <;> simp [hbit, digitChar, Nat.add_comm]

/-- The top bit of a digit string's number is its first digit, and the bits below are those of the rest. -/
theorem testBit_binaryValue_cons (c : Char) (cs : List Char) {i : Nat} (hi : i ≤ cs.length) :
    (binaryValue (c :: cs)).testBit i = if i = cs.length then decide (c = '1') else (binaryValue cs).testBit i := by
  have hlt := binaryValue_lt cs
  have hvalue : binaryValue (c :: cs) = 2 ^ cs.length * (decide (c = '1')).toNat + binaryValue cs := by
    rw [binaryValue]
    by_cases hc : c = '1' <;> simp [hc]
  rw [hvalue, Nat.testBit_two_pow_mul_add _ hlt]
  rcases hi.lt_or_eq with hi | rfl
  · rw [if_pos hi, if_neg hi.ne]
  · rw [if_neg (Nat.lt_irrefl _), if_pos rfl, Nat.sub_self]
    cases decide (c = '1') <;> rfl

/-- A digit string is the digits of its number. -/
theorem digitsOf_binaryValue {cs : List Char} (hdigits : ∀ c ∈ cs, IsDigit c) : digitsOf cs.length (binaryValue cs) = cs := by
  induction cs with
  | nil => rfl
  | cons c cs ih =>
    obtain ⟨hc, hcs⟩ := List.forall_mem_cons.mp hdigits
    have hrest : digitsOf cs.length (binaryValue (c :: cs)) = digitsOf cs.length (binaryValue cs) :=
      digitsOf_congr fun i hi => by rw [testBit_binaryValue_cons c cs hi.le, if_neg hi.ne]
    rw [List.length_cons, digitsOf_succ, hrest, ih hcs, testBit_binaryValue_cons c cs le_rfl, if_pos rfl,
      digitChar_of_isDigit hc]

/-- `bitLength` is the least length that holds the number (R257). -/
theorem bitLength_le_iff {n k : Nat} : bitLength n ≤ k ↔ n < 2 ^ k := by
  rw [bitLength]
  split_ifs with hn
  · simp [hn]
  · exact Nat.log2_lt hn

theorem bitLength_of_ne_zero {n : Nat} (hn : n ≠ 0) : bitLength n = n.log2 + 1 := if_neg hn

/-- The fewest digits of a number other than zero begin with 1. -/
theorem digitsOf_bitLength {n : Nat} (hn : n ≠ 0) : digitsOf (bitLength n) n = '1' :: digitsOf n.log2 n := by
  rw [bitLength_of_ne_zero hn, digitsOf_succ, Nat.testBit_log2 hn]
  rfl

/-- What is left of enough digits of a number without their leading zeros is the fewest digits of it. -/
theorem dropWhile_zero_digitsOf {n k : Nat} (hn : n ≠ 0) (hk : n < 2 ^ k) :
    (digitsOf k n).dropWhile (· == '0') = digitsOf (bitLength n) n := by
  induction k, bitLength_le_iff.mpr hk using Nat.le_induction with
  | base =>
    rw [digitsOf_bitLength hn]
    rfl
  | succ k hle ih =>
    have hfits : n < 2 ^ k := bitLength_le_iff.mp hle
    rw [digitsOf_succ, Nat.testBit_lt_two_pow hfits, ← ih hfits]
    rfl

theorem digitsOf_byte (b : Byte) :
    digitsOf 8 b.toNat = [7, 6, 5, 4, 3, 2, 1, 0].map (fun k => if b.getLsbD k then '1' else '0') := by
  rw [digitsOf]
  simp only [BitVec.testBit_toNat]
  rfl

end Sys2Proof.Machine
end

section
/-! RULES. 45_numeric_codec.md: the result of each operation under the conditions of its rule. -/

namespace Sys2Proof.Machine

open Sys2Proof.Stated

theorem exec_f2b (s : State) (x : Bits32) : exec (.f2b x) s = .next (answered s (.digits (digitsOf 32 x.toNat))) :=
  exec_of_answer rfl

theorem exec_b2f {cs : List Char} (s : State) (hne : cs ≠ []) (hdigits : ∀ c ∈ cs, IsDigit c)
    (hvalue : binaryValue cs < 2 ^ 32) :
    exec (.b2f cs) s = .next (answered s (.bits32 (BitVec.ofNat 32 (binaryValue cs)))) := by
  have hchecks : 1 ≤ cs.length ∧ cs.all isDigit = true ∧ binaryValue cs < 2 ^ 32 :=
    ⟨List.length_pos_iff.mpr hne, all_isDigit_iff.mpr hdigits, hvalue⟩
  rw [exec_eq_answered_iff, answerOf, parseBits32_eq, stringValue_eq_binaryValue, if_pos hchecks, toResult_ok]

theorem exec_b2f_badDigitString {cs : List Char} (s : State)
    (hbad : cs = [] ∨ (∃ c ∈ cs, ¬ IsDigit c) ∨ 2 ^ 32 ≤ binaryValue cs) :
    exec (.b2f cs) s = .next (answered s (.err .badDigitString)) := by
  have hchecks : ¬ (1 ≤ cs.length ∧ cs.all isDigit = true ∧ binaryValue cs < 2 ^ 32) := by
    rintro ⟨hlen, hall, hvalue⟩
    rcases hbad with hnil | ⟨c, hc, hnot⟩ | hbig
    · exact List.length_pos_iff.mp hlen hnil
    · exact hnot (all_isDigit_iff.mp hall c hc)
    · exact Nat.not_lt.mpr hbig hvalue
  rw [exec_eq_answered_iff, answerOf, parseBits32_eq, stringValue_eq_binaryValue, if_neg hchecks, toResult_error]

theorem exec_i2b_negativeInput {n : Int} (s : State) (hn : n < 0) :
    exec (.i2b n) s = .next (answered s (.err .negativeInput)) := by
  rw [exec_eq_answered_iff, answerOf, renderInt_eq, if_neg (Int.not_le.mpr hn), toResult_error]

theorem exec_i2b_zero (s : State) : exec (.i2b 0) s = .next (answered s (.digits ['0'])) :=
  exec_of_answer rfl

theorem exec_i2b_natCast {n : Nat} (s : State) (hn : n ≠ 0) :
    exec (.i2b n) s = .next (answered s (.digits (digitsOf (bitLength n) n))) := by
  rw [exec_eq_answered_iff, answerOf, renderInt_eq, if_pos (Int.natCast_nonneg n), if_neg (Int.natCast_ne_zero.mpr hn),
    Int.toNat_natCast, toResult_ok]

end Sys2Proof.Machine
end

section
/-! SUPPORT. Legal results (45_numeric_codec.md R250): every answer is one, so every step keeps all results returned legal. -/

namespace Sys2Proof.Machine

open Sys2Proof.Stated

theorem legalResult_digits_iff {cs : List Char} : legalResult (.digits cs) = true ↔ cs ≠ [] ∧ ∀ c ∈ cs, IsDigit c := by
  simp [legalResult, IsDigit]

theorem legalResult_digits_digitsOf {k : Nat} (n : Nat) (hk : k ≠ 0) : legalResult (.digits (digitsOf k n)) = true := by
  refine legalResult_digits_iff.mpr ⟨fun hnil => hk ?_, fun c => isDigit_of_mem_digitsOf⟩
  rw [← length_digitsOf k n, hnil, List.length_nil]

/-- An error is legal, so the result of a pseudocode is if each value it can return is. -/
theorem legalResult_toResult {α : Type} {mk : α → Result} {r : Except ErrorCode α}
    (hok : ∀ v, r = .ok v → legalResult (mk v) = true) : legalResult (toResult mk r) = true := by
  cases r with
  | ok v => exact hok v rfl
  | error e => rfl

theorem legalResult_renderInt (n : Int) : legalResult (toResult .digits (renderInt n)) = true := by
  refine legalResult_toResult fun cs hcs => ?_
  rw [renderInt_eq] at hcs
  split_ifs at hcs with hn hzero <;> cases hcs
  · rfl
  · have hne : n.toNat ≠ 0 := by omega
    rw [bitLength_of_ne_zero hne]
    exact legalResult_digits_digitsOf _ (Nat.succ_ne_zero _)

/-- Only F2B and I2B return digit strings; the results of the other operations are legal by their kind. -/
theorem legalResult_answerOf (build : Config) (i : Instr) : legalResult (answerOf build i) = true := by
  cases i
  case f2b x => exact legalResult_digits_digitsOf _ (by decide)
  case i2b n => exact legalResult_renderInt n
  case val => rfl
  all_goals exact legalResult_toResult fun _ _ => rfl

theorem legalResult_transactionResult (build : Config) (t : Transaction) :
    legalResult (transactionResult build t) = true := by
  rw [transactionResult]
  cases decode t.cmd t.operands with
  | ok i => exact legalResult_answerOf build i
  | error e => rfl

theorem legal_iff {s : State} : s.legal = true ↔ ∀ r ∈ s.outbox, legalResult r.result = true := List.all_eq_true

theorem legalResult_of_mem_answers {build : Config} {x : Stimulus} {r : Response} (h : r ∈ x.answers build) :
    legalResult r.result = true := by
  cases x with
  | issue t =>
    rw [answers_issue, List.mem_singleton] at h
    subst h
    exact legalResult_transactionResult build t
  | reset => cases h
  | resetDuring t => cases h

/-- The results to come are legal, so the history is if the results returned are. -/
theorem legalResult_of_mem_history {s : State} (hlegal : s.legal = true) {r : Response} (h : r ∈ s.history) :
    legalResult r.result = true := by
  rcases List.mem_append.mp h with hreturned | hcoming
  · exact legal_iff.mp hlegal r hreturned
  · obtain ⟨x, -, hr⟩ := List.mem_flatMap.mp hcoming
    exact legalResult_of_mem_answers hr

/-- A step keeps the history, and what has been returned after it is part of that. -/
theorem step_keeps_legal {s s' : State} (hlegal : s.legal = true) (hstep : step s = .next s') : s'.legal = true := by
  refine legal_iff.mpr fun r hr => legalResult_of_mem_history hlegal ?_
  rw [← step_history hstep]
  exact List.mem_append_left _ hr

end Sys2Proof.Machine
end

section
/-! PROOFS. The numeric codec of 45_numeric_codec.md: O26 to O31, and the invariant of legal results: O40, O41. -/

namespace Sys2Proof.Proofs

open Sys2Proof.Machine Sys2Proof.Stated

/-- Settles O40: each step keeps the history (O38), of which every result still to come is legal. -/
theorem legalResultsAreKeptByEveryStep : Obligations.LegalResultsAreKeptByEveryStep := by
  unfold Obligations.LegalResultsAreKeptByEveryStep
  exact fun _ _ => step_keeps_legal

/-- Settles O41: nothing has been returned at reset. -/
theorem resetResultsAreLegal : Obligations.ResetResultsAreLegal := by
  unfold Obligations.ResetResultsAreLegal
  exact legal_iff.mpr nofun

/-- Settles O26: the digits of a pattern are those of its 32 bits, in falling order. -/
theorem floatToStringFollowsItsRule : Obligations.FloatToStringFollowsItsRule := by
  unfold Obligations.FloatToStringFollowsItsRule
  refine ⟨decode_cmd .f2b, fun s x => ⟨_, exec_f2b s x, length_digitsOf .., fun i hi => ?_⟩⟩
  rw [getElem?_digitsOf _ hi, BitVec.testBit_toNat]
  rfl

/-- Settles O27: the digits of appended bit vectors are the digits of the parts, appended. -/
theorem floatStringIsFourByteRenderings : Obligations.FloatStringIsFourByteRenderings := by
  unfold Obligations.FloatStringIsFourByteRenderings
  intro s b3 b2 b1 b0
  have hbytes : digitsOf (8 + 8 + 8 + 8) (b3 ++ b2 ++ b1 ++ b0).toNat =
      [b3, b2, b1, b0].flatMap (fun b => digitsOf 8 b.toNat) := by
    simp only [digitsOf_toNat_append, List.flatMap_cons, List.flatMap_nil, List.append_assoc, List.append_nil]
  simp only [digitsOf_byte] at hbytes
  exact exec_of_answer (congrArg Result.digits hbytes)

/-- Settles O28: the number the pseudocode accumulates is the value of the string, and its checks are the three causes of R254. -/
theorem stringToFloatFollowsItsRule : Obligations.StringToFloatFollowsItsRule := by
  unfold Obligations.StringToFloatFollowsItsRule
  exact ⟨decode_cmd .b2f, fun s _ => ⟨exec_b2f s, exec_b2f_badDigitString s⟩⟩

/-- Settles O29: the 32 digits of a number below 2^32 have it as their value, and a string is the digits of its value. -/
theorem floatCodecsAreInverse : Obligations.FloatCodecsAreInverse := by
  unfold Obligations.FloatCodecsAreInverse
  refine ⟨fun s x => ⟨_, exec_f2b s x, ?_⟩, fun s cs hlen hdigits => ⟨_, exec_b2f s ?_ hdigits ?_, ?_⟩⟩
  · have hvalue : binaryValue (digitsOf 32 x.toNat) = x.toNat := by
      rw [binaryValue_digitsOf, Nat.mod_eq_of_lt x.isLt]
    have hne : digitsOf 32 x.toNat ≠ [] := List.ne_nil_of_length_eq_add_one (length_digitsOf 32 _)
    have hexec := exec_b2f s hne (fun _ => isDigit_of_mem_digitsOf) (hvalue.trans_lt x.isLt)
    rwa [hvalue, BitVec.ofNat_toNat, BitVec.setWidth_eq] at hexec
  · exact List.ne_nil_of_length_eq_add_one hlen
  · exact hlen ▸ binaryValue_lt cs
  · rw [exec_f2b, BitVec.toNat_ofNat, Nat.mod_eq_of_lt (hlen ▸ binaryValue_lt cs), ← hlen, digitsOf_binaryValue hdigits]

/-- Settles O30: the fewest digits of a positive number begin with the 1 of its top bit, and no bit of it is above them. -/
theorem intToStringFollowsItsRule : Obligations.IntToStringFollowsItsRule := by
  unfold Obligations.IntToStringFollowsItsRule
  refine ⟨decode_cmd .i2b, fun s n => ⟨exec_i2b_negativeInput s, ?_, fun hpos => ?_⟩⟩
  · rintro rfl
    exact exec_i2b_zero s
  · obtain ⟨m, rfl⟩ := Int.eq_ofNat_of_zero_le hpos.le
    have hm : m ≠ 0 := by omega
    have hfits : m < 2 ^ bitLength m := bitLength_le_iff.mp le_rfl
    refine ⟨_, exec_i2b_natCast s hm, fun _ => isDigit_of_mem_digitsOf, ?_, ?_, fun k hk => ?_, ?_⟩
    · rw [digitsOf_bitLength hm, List.head?_cons]
    · rwa [Int.toNat_natCast, length_digitsOf]
    · rw [length_digitsOf]
      exact bitLength_le_iff.mpr hk
    · rw [binaryValue_digitsOf, Nat.mod_eq_of_lt hfits]

/-- Settles O31: 32 digits hold the number of a pattern, so they are its fewest digits after leading zeros. -/
theorem intStringIsFloatStringWithoutLeadingZeros : Obligations.IntStringIsFloatStringWithoutLeadingZeros := by
  unfold Obligations.IntStringIsFloatStringWithoutLeadingZeros
  intro s x hx
  have hne : x.toNat ≠ 0 := fun h => hx (BitVec.eq_of_toNat_eq h)
  refine ⟨_, exec_f2b s x, length_digitsOf .., ?_⟩
  rw [dropWhile_zero_digitsOf hne x.isLt]
  exact exec_i2b_natCast s hne

end Sys2Proof.Proofs
end

section
/-! SUPPORT. The source's own checks (60_exceptions.md R304): where one fails, the pseudocode ends there, whatever its later checks
would say. -/

namespace Sys2Proof.Machine

open Sys2Proof.Stated

theorem readRequest_invalidQuantity (fc : Byte) {limit : Int} (a : Int) {q : Int} (hlimit : limit ≤ 65535)
    (h : q < 1 ∨ limit < q) : readRequest fc limit a q = .error .invalidQuantity :=
  (readRequest_checksQuantity fc a q hlimit).invalidQuantity_iff.mpr h

/-- Every row of `sourceError` names the failure of the first check of its pseudocode. -/
theorem answerOf_of_sourceError (build : Config) {i : Instr} {e : ErrorCode} (h : sourceError i = some e) :
    answerOf build i = .err e := by
  cases i
  case reqRc | reqRdi | reqRhr | reqRir =>
    obtain ⟨hq, ⟨⟩⟩ := Option.ite_none_right_eq_some.mp h
    exact congrArg (toResult .bytes) (readRequest_invalidQuantity _ _ (by decide) hq)
  case reqWsc a c =>
    cases c with
    | bool b => cases h
    | int v =>
      obtain ⟨hv, ⟨⟩⟩ := Option.ite_none_left_eq_some.mp h
      obtain ⟨hoff, hon⟩ := not_or.mp hv
      exact congrArg (toResult .bytes) (writeCoilRequest_illegalValue hoff hon)
  case reqWmc =>
    obtain ⟨hn, ⟨⟩⟩ := Option.ite_none_right_eq_some.mp h
    exact congrArg (toResult .bytes) (writeCoilsRequest_invalidQuantity hn)
  case reqWmr =>
    obtain ⟨hn, ⟨⟩⟩ := Option.ite_none_right_eq_some.mp h
    exact congrArg (toResult .bytes) (writeRegistersRequest_invalidQuantity hn)
  case rspRhr | rspRir =>
    obtain ⟨hn, ⟨⟩⟩ := Option.ite_none_right_eq_some.mp h
    exact congrArg (toResult .bytes) (readRegsResponse_invalidQuantity hn)
  all_goals cases h

end Sys2Proof.Machine
end

section
/-! PROOFS. Every step answers, and the order of the errors (60_exceptions.md R303, R304, R306): O35, O48. -/

namespace Sys2Proof.Proofs

open Sys2Proof.Machine Sys2Proof.Stated

/-- Settles O35: an empty inbox leaves the state as it is, and any first stimulus is served, an interrupted transaction too. -/
theorem everyStepAnswersANextState : Obligations.EveryStepAnswersANextState := by
  unfold Obligations.EveryStepAnswersANextState
  intro s
  cases h : s.inbox with
  | nil => exact ⟨s, by rw [step, fetch_idle h], rfl, h⟩
  | cons x rest =>
    obtain ⟨s', hstep, hbuild, hinbox, -⟩ := step_serves h
    exact ⟨s', hstep, hbuild, hinbox⟩

/-- Settles O48: the check whose failure `sourceError` names is the first of its pseudocode. -/
theorem sourceErrorsComeFirst : Obligations.SourceErrorsComeFirst := by
  unfold Obligations.SourceErrorsComeFirst
  intro i s e h
  exact exec_of_answer (answerOf_of_sourceError s.build h)

end Sys2Proof.Proofs
end

section
/-! SUPPORT. What a step does with no stimulus and with a reset (70_reset_and_hazards.md R340, R341), and a run of one step. -/

namespace Sys2Proof.Machine

theorem step_idle {s : State} (h : s.inbox = []) : step s = .next s := by
  rw [step, fetch_idle h]

theorem step_reset {s : State} {rest : List Stimulus} (h : s.inbox = .reset :: rest) : step s = .next (s.pass rest) := by
  rw [step, fetch_reset h]

theorem step_resetDuring {s : State} {t : Transaction} {rest : List Stimulus} (h : s.inbox = .resetDuring t :: rest) :
    step s = .next (s.pass rest) := by
  rw [step, fetch_resetDuring h]

theorem run_one (M : Host.Core) (s : M.State) : M.run 1 s = M.step s := by
  rw [Host.Core.run]
  cases M.step s <;> rfl

end Sys2Proof.Machine
end

section
/-! PROOFS. Reset (70_reset_and_hazards.md R340 to R343): O7, O8. -/

namespace Sys2Proof.Proofs

open Sys2Proof.Machine Sys2Proof.Stated

/-- Settles O7: the reset values and the idle step are the model's own (log entries 2, 3 and 5); the first transaction after
reset is served as in any other state (O6). -/
theorem resetStateAcceptsTransactions : Obligations.ResetStateAcceptsTransactions := by
  unfold Obligations.ResetStateAcceptsTransactions
  refine ⟨rfl, rfl, rfl, rfl, step_idle rfl, fun _ _ hinbox => step_reset hinbox, fun t i hdecode => ?_⟩
  exact stepRunsTheDecodedInstruction (State.reset.present t) t [] i (present_inbox State.reset t) hdecode

/-- Settles O8: the interrupted transaction passes like a reset, so of the two steps the second alone serves, and it serves the
reissued transaction in the state the first has left untouched but for the inbox. -/
theorem interruptedTransactionReturnsNothing : Obligations.InterruptedTransactionReturnsNothing := by
  unfold Obligations.InterruptedTransactionReturnsNothing
  refine ⟨fun _ _ _ hinbox => step_resetDuring hinbox, fun s t rest hinbox => ?_⟩
  rw [run_succ_of_step 1 (step_resetDuring hinbox)]
  exact run_one core (s.pass (.issue t :: rest))

end Sys2Proof.Proofs
end
